-- ==== Sys2Proof/Word.lean ====
section
/-! DEFINITION. The word types of the CORE. Every value of this hardware is an unsigned integer of a stated
width, bit 0 the least significant (00_scope.md R7); nothing is ever read as signed. -/

namespace Sys2Proof

/-- An 8-bit value: the opcode byte, an operand field, a register index (00_scope.md R6, 30_encoding.md R48). -/
abbrev Byte := BitVec 8

/-- A 32-bit value: a register, a memory cell, an instruction word, an ALU operand (00_scope.md R6, `XLEN`). -/
abbrev Word := BitVec 32

/-- A 16-bit memory address, the index of a whole 32-bit cell (20_memory.md R31, `MEM_ADDR_WIDTH`). -/
abbrev Addr := BitVec 16

/-- A program counter value and a call-stack entry: `PC_WIDTH` = 32 bits (10_state.md R18).
DESIGN CHOICE of the spec (92_eei_decisions.md D3), safe: no behaviour depends on a width of 17 bits or more
(10_state.md R20). Log entry 2. -/
abbrev Pc := BitVec 32

end Sys2Proof
end

