-- ==== Sys2Proof/Config.lean ====
section
/-! DEFINITION. What an instance of the CORE fixes for its whole life (00_scope.md R6): the mnemonics, the
opcode map `OPC`, the memory size, the capacity of the call stack and the status number of the fatal fault.
They are parameters, so that every meaning and every statement holds for each admissible instance; the values
of this hardware are `defaultOpcodeMap` (Sys2Proof/Decode.lean) and `defaultParams`
(Sys2Proof/Machine/Defaults.lean). The number of registers, `REG_COUNT`, is the length of the register file
itself (`State.regCount`). No value of this machine is left free: Config holds no uninterpreted constant. -/

namespace Sys2Proof

/-- The twenty mnemonics, in the order the spec lists them (30_encoding.md R51). -/
inductive Mnemonic where
  | add | sub | mul | div | inc | dec
  | and | or | xor | not
  | jmp | beq | bne | call | ret
  | ld | st
  | fft | enc | decrypt
  deriving DecidableEq, Repr

/-- The twenty mnemonics as a list, in the spec's order (30_encoding.md R51). -/
def Mnemonic.all : List Mnemonic :=
  [.add, .sub, .mul, .div, .inc, .dec, .and, .or, .xor, .not,
   .jmp, .beq, .bne, .call, .ret, .ld, .st, .fft, .enc, .decrypt]

/-- The parameter `OPC`: the one-byte code of each of the twenty mnemonics (30_encoding.md R52). Which maps are
admissible is `OpcodeMap.admissible` (Sys2Proof/WellFormed.lean). -/
structure OpcodeMap where
  add : Byte
  sub : Byte
  mul : Byte
  div : Byte
  inc : Byte
  dec : Byte
  and : Byte
  or : Byte
  xor : Byte
  not : Byte
  jmp : Byte
  beq : Byte
  bne : Byte
  call : Byte
  ret : Byte
  ld : Byte
  st : Byte
  fft : Byte
  enc : Byte
  decrypt : Byte
  deriving DecidableEq, Repr

/-- `OPC(m)`: the code of a mnemonic (30_encoding.md R52). -/
def OpcodeMap.code (opc : OpcodeMap) : Mnemonic → Byte
  | .add => opc.add
  | .sub => opc.sub
  | .mul => opc.mul
  | .div => opc.div
  | .inc => opc.inc
  | .dec => opc.dec
  | .and => opc.and
  | .or => opc.or
  | .xor => opc.xor
  | .not => opc.not
  | .jmp => opc.jmp
  | .beq => opc.beq
  | .bne => opc.bne
  | .call => opc.call
  | .ret => opc.ret
  | .ld => opc.ld
  | .st => opc.st
  | .fft => opc.fft
  | .enc => opc.enc
  | .decrypt => opc.decrypt

/-- All twenty codes, in the spec's order of mnemonics. A byte outside this list is unassigned
(30_encoding.md R57). -/
def OpcodeMap.codes (opc : OpcodeMap) : List Byte := Mnemonic.all.map opc.code

/-- The codes of the six mnemonics that have an effect of their own, in the order of 41_cycle.md R75. -/
def OpcodeMap.dispatchedCodes (opc : OpcodeMap) : List Byte :=
  [opc.add, opc.inc, opc.st, opc.call, opc.ret, opc.ld]

/-- The parameters an instance is constructed with (00_scope.md R6), but for `REG_COUNT`. -/
structure Params where
  /-- `MEM_SIZE`: the number of memory cells, 1 to 65536. -/
  memSize : Nat
  /-- `STACK_DEPTH`: the capacity of the call stack; `none` is the spec's default, unbounded (10_state.md R22). -/
  stackDepth : Option Nat
  /-- `OPC`: the opcode map. -/
  opc : OpcodeMap
  /-- `FAULT_STATUS`: the number a fault reports to the host; only that it is not 0 is given
  (60_exceptions.md R111). -/
  faultStatus : Nat
  deriving DecidableEq, Repr

end Sys2Proof
end

