-- ==== Sys2Proof/Syntax.lean ====
section
/-! DEFINITION. The instructions of the CORE: one constructor for each row of the opcode table, its arguments
the operand fields that its format uses (30_encoding.md R49, R53). A field that a format does not use is ignored
on decode (30_encoding.md R54) and so is no argument. -/

namespace Sys2Proof

/-- An instruction, as 30_encoding.md R53 decodes it. `r1`, `r2`, `r3` are the raw 8-bit fields: whether one is a
register index, a memory address or a target is the instruction's own reading (30_encoding.md R49). -/
inductive Instr where
  /-- ADD `r1, r2, r3`, format RRR (42_arith.md R83). -/
  | add (r1 r2 r3 : Byte)
  /-- SUB, format F: declared, not executable (42_arith.md R84). -/
  | sub
  /-- MUL, format F: declared, not executable (42_arith.md R85). -/
  | mul
  /-- DIV, format F: declared, not executable (42_arith.md R86). -/
  | div
  /-- INC `r1`, format R (42_arith.md R87). -/
  | inc (r1 : Byte)
  /-- DEC, format F: declared, not executable (42_arith.md R88). -/
  | dec
  /-- AND, format F: declared, not executable (43_logic.md R89). -/
  | and
  /-- OR, format F: declared, not executable (43_logic.md R90). -/
  | or
  /-- XOR, format F: declared, not executable (43_logic.md R91). -/
  | xor
  /-- NOT, format F: declared, not executable (43_logic.md R92). -/
  | not
  /-- JMP, format F: declared, not executable (44_control.md R93). -/
  | jmp
  /-- BEQ, format F: declared, not executable (44_control.md R94). -/
  | beq
  /-- BNE, format F: declared, not executable (44_control.md R95). -/
  | bne
  /-- CALL `r1`, format T: `r1` is the target word address (44_control.md R96). -/
  | call (r1 : Byte)
  /-- RET, format N (44_control.md R97). -/
  | ret
  /-- LD `r1, [r2]`, format RA: `r2` is a memory word address (45_loadstore.md R100). -/
  | ld (r1 r2 : Byte)
  /-- ST `[r1], r2`, format AR: `r1` is a memory word address (45_loadstore.md R101). -/
  | st (r1 r2 : Byte)
  /-- FFT, format F: declared, not executable (46_accel_and_unassigned.md R104). -/
  | fft
  /-- ENC, format F: declared, not executable (46_accel_and_unassigned.md R105). -/
  | enc
  /-- DECRYPT, format F: declared, not executable (46_accel_and_unassigned.md R106). -/
  | decrypt
  /-- The table's catch-all row: a word whose opcode byte `b` is the code of no mnemonic
  (46_accel_and_unassigned.md R107). -/
  | unassigned (b : Byte)
  deriving DecidableEq, Repr

/-- The opcode byte of an instruction under the map `OPC` (30_encoding.md R52, R53). -/
def Instr.opcodeByte (opc : OpcodeMap) : Instr → Byte
  | .add _ _ _ => opc.add
  | .sub => opc.sub
  | .mul => opc.mul
  | .div => opc.div
  | .inc _ => opc.inc
  | .dec => opc.dec
  | .and => opc.and
  | .or => opc.or
  | .xor => opc.xor
  | .not => opc.not
  | .jmp => opc.jmp
  | .beq => opc.beq
  | .bne => opc.bne
  | .call _ => opc.call
  | .ret => opc.ret
  | .ld _ _ => opc.ld
  | .st _ _ => opc.st
  | .fft => opc.fft
  | .enc => opc.enc
  | .decrypt => opc.decrypt
  | .unassigned b => b

/-- The dispatched instructions: the six with an effect of their own (00_scope.md R12, 41_cycle.md R75). -/
def Instr.dispatched : Instr → Bool
  | .add _ _ _ => true
  | .sub => false
  | .mul => false
  | .div => false
  | .inc _ => true
  | .dec => false
  | .and => false
  | .or => false
  | .xor => false
  | .not => false
  | .jmp => false
  | .beq => false
  | .bne => false
  | .call _ => true
  | .ret => true
  | .ld _ _ => true
  | .st _ _ => true
  | .fft => false
  | .enc => false
  | .decrypt => false
  | .unassigned _ => false

end Sys2Proof
end

