-- ==== Sys2Proof/WellFormed.lean ====
section
/-! DEFINITION. Which opcode maps, which instance parameters and which instructions are meaningful. Everything
else about an instruction is well formed by its type: an operand field is any byte (30_encoding.md R50). -/

namespace Sys2Proof

/-- The constraints on `OPC` (30_encoding.md R52): distinct mnemonics have distinct codes, and neither 0x00 nor
0xFF is the code of a mnemonic. -/
def OpcodeMap.admissible (opc : OpcodeMap) : Bool :=
  decide opc.codes.Nodup && !opc.codes.contains 0x00#8 && !opc.codes.contains 0xFF#8

/-- The ranges of the construction-time parameters (00_scope.md R6, 92_eei_decisions.md D7): `REG_COUNT` in
1 … 256, `MEM_SIZE` in 1 … 65536, an admissible `OPC`, a fault status that is not 0. Other values are refused.
DESIGN CHOICE of the spec, safe: a refused instance proves nothing. Log entry 6. -/
def Params.admissible (p : Params) (regCount : Nat) : Bool :=
  decide (1 ≤ regCount) && decide (regCount ≤ 256) &&
  decide (1 ≤ p.memSize) && decide (p.memSize ≤ 65536) &&
  decide (p.faultStatus ≠ 0) && p.opc.admissible

/-- An instruction is well formed under `OPC` when it has an encoding: the byte of an unassigned instruction is
the code of no mnemonic (46_accel_and_unassigned.md R107); every other instruction always has one. -/
def Instr.wf (opc : OpcodeMap) : Instr → Bool
  | .add _ _ _ => true
  | .sub => true
  | .mul => true
  | .div => true
  | .inc _ => true
  | .dec => true
  | .and => true
  | .or => true
  | .xor => true
  | .not => true
  | .jmp => true
  | .beq => true
  | .bne => true
  | .call _ => true
  | .ret => true
  | .ld _ _ => true
  | .st _ _ => true
  | .fft => true
  | .enc => true
  | .decrypt => true
  | .unassigned b => !opc.codes.contains b

end Sys2Proof
end

