-- ==== Sys2Proof/Decode.lean ====
section
/-! DEFINITION. The decoder, total on every 32-bit word (30_encoding.md R53), the encoder after it
(30_encoding.md R55), the default opcode map (30_encoding.md R52) and the reading of an opcode-table word. -/

namespace Sys2Proof

/-- The default `OPC`: the mnemonics numbered from 0x01 in the order the spec lists them (30_encoding.md R52).
DESIGN CHOICE of the spec (92_eei_decisions.md D2, 90_conflicts.md C2), unsafe: the source gives no code, and
a claim about one numeric word of this map may be false of the repository. Log entry 1. -/
def defaultOpcodeMap : OpcodeMap where
  add := 0x01#8
  sub := 0x02#8
  mul := 0x03#8
  div := 0x04#8
  inc := 0x05#8
  dec := 0x06#8
  and := 0x07#8
  or := 0x08#8
  xor := 0x09#8
  not := 0x0A#8
  jmp := 0x0B#8
  beq := 0x0C#8
  bne := 0x0D#8
  call := 0x0E#8
  ret := 0x0F#8
  ld := 0x10#8
  st := 0x11#8
  fft := 0x12#8
  enc := 0x13#8
  decrypt := 0x14#8

/-- The field `opcode` = `w[31:24]` (30_encoding.md R48). -/
def opcodeField (w : Word) : Byte := w.extractLsb' 24 8

/-- The field `r1` = `w[23:16]` (30_encoding.md R48). -/
def r1Field (w : Word) : Byte := w.extractLsb' 16 8

/-- The field `r2` = `w[15:8]` (30_encoding.md R48). -/
def r2Field (w : Word) : Byte := w.extractLsb' 8 8

/-- The field `r3` = `w[7:0]` (30_encoding.md R48). -/
def r3Field (w : Word) : Byte := w.extractLsb' 0 8

/-- The mnemonic whose code a byte is, if it is one (30_encoding.md R52, R53). The codes of an admissible map are
distinct, so at most one is. -/
def mnemonicOf (opc : OpcodeMap) (b : Byte) : Option Mnemonic :=
  Mnemonic.all.find? fun m => opc.code m == b

/-- The decoder: the opcode byte alone picks the instruction, which takes the fields its format uses; the others
are ignored (30_encoding.md R53, R54). Every word decodes; a byte that is the code of no mnemonic is rejected by
name, as `unassigned` with that byte (30_encoding.md R57).
DEDUCED by the spec that a decoder ignores unused fields (92_eei_decisions.md D17), unsafe for words that are not
canonical. Log entry 17. -/
def decode (opc : OpcodeMap) (w : Word) : Instr :=
  match mnemonicOf opc (opcodeField w) with
  | some .add => .add (r1Field w) (r2Field w) (r3Field w)
  | some .sub => .sub
  | some .mul => .mul
  | some .div => .div
  | some .inc => .inc (r1Field w)
  | some .dec => .dec
  | some .and => .and
  | some .or => .or
  | some .xor => .xor
  | some .not => .not
  | some .jmp => .jmp
  | some .beq => .beq
  | some .bne => .bne
  | some .call => .call (r1Field w)
  | some .ret => .ret
  | some .ld => .ld (r1Field w) (r2Field w)
  | some .st => .st (r1Field w) (r2Field w)
  | some .fft => .fft
  | some .enc => .enc
  | some .decrypt => .decrypt
  | none => .unassigned (opcodeField w)

/-- The packing formula `(opcode<<24) | (r1<<16) | (r2<<8) | r3` (30_encoding.md R48). -/
def packWord (b r1 r2 r3 : Byte) : Word :=
  (b.setWidth 32 <<< 24) ||| (r1.setWidth 32 <<< 16) ||| (r2.setWidth 32 <<< 8) ||| r3.setWidth 32

/-- The canonical word of an instruction: every field its format does not use is zero (30_encoding.md R55). -/
def encode (opc : OpcodeMap) : Instr → Word
  | .add r1 r2 r3 => packWord opc.add r1 r2 r3
  | .sub => packWord opc.sub 0 0 0
  | .mul => packWord opc.mul 0 0 0
  | .div => packWord opc.div 0 0 0
  | .inc r1 => packWord opc.inc r1 0 0
  | .dec => packWord opc.dec 0 0 0
  | .and => packWord opc.and 0 0 0
  | .or => packWord opc.or 0 0 0
  | .xor => packWord opc.xor 0 0 0
  | .not => packWord opc.not 0 0 0
  | .jmp => packWord opc.jmp 0 0 0
  | .beq => packWord opc.beq 0 0 0
  | .bne => packWord opc.bne 0 0 0
  | .call r1 => packWord opc.call r1 0 0
  | .ret => packWord opc.ret 0 0 0
  | .ld r1 r2 => packWord opc.ld r1 r2 0
  | .st r1 r2 => packWord opc.st r1 r2 0
  | .fft => packWord opc.fft 0 0 0
  | .enc => packWord opc.enc 0 0 0
  | .decrypt => packWord opc.decrypt 0 0 0
  | .unassigned b => packWord b 0 0 0

/-- The bits of a word that the instruction's format uses: the opcode byte and the operand fields it reads
(30_encoding.md R49). -/
def usedBits : Instr → Word
  | .add _ _ _ => 0xFFFFFFFF#32
  | .sub => 0xFF000000#32
  | .mul => 0xFF000000#32
  | .div => 0xFF000000#32
  | .inc _ => 0xFFFF0000#32
  | .dec => 0xFF000000#32
  | .and => 0xFF000000#32
  | .or => 0xFF000000#32
  | .xor => 0xFF000000#32
  | .not => 0xFF000000#32
  | .jmp => 0xFF000000#32
  | .beq => 0xFF000000#32
  | .bne => 0xFF000000#32
  | .call _ => 0xFFFF0000#32
  | .ret => 0xFF000000#32
  | .ld _ _ => 0xFFFFFF00#32
  | .st _ _ => 0xFFFFFF00#32
  | .fft => 0xFF000000#32
  | .enc => 0xFF000000#32
  | .decrypt => 0xFF000000#32
  | .unassigned _ => 0xFF000000#32

/-- The one instruction word that stands in the low `nbits` bits of `w`, every higher bit 0 (30_encoding.md R47:
an instruction is one 32-bit word, bit 0 its least significant bit). -/
def tableWord (nbits w : Nat) : Word := BitVec.ofNat 32 (w % 2 ^ nbits)

/-- The instruction the decoder reads, under the default map, from an opcode-table word of `nbits` bits; no
instruction is longer than 32 bits. -/
def decodeTableWord (nbits w : Nat) : Option Instr :=
  if nbits ≤ 32 then some (decode defaultOpcodeMap (tableWord nbits w)) else none

end Sys2Proof
end

