-- ==== Sys2Proof/Machine/Defaults.lean ====
section
/-! DEFINITION. The parameters of this hardware, and the values the model names where the spec leaves the
contents of storage open. -/

namespace Sys2Proof.Machine

/-- `REG_COUNT` of this hardware (00_scope.md R6, 10_state.md R14). -/
def defaultRegCount : Nat := 16

/-- The parameters of this hardware (00_scope.md R6): 1024 cells, an unbounded call stack, the default `OPC`,
fault status 1. DESIGN CHOICE of the spec for the depth (D4), for `OPC` (D2) and for the status (D9): log entries
1, 3 and 10; unsafe for `OPC`, safe for the others. -/
def defaultParams : Params where
  memSize := 1024
  stackDepth := none
  opc := defaultOpcodeMap
  faultStatus := 1

/-- What every register holds at `State.reset`. DESIGN CHOICE, unsafe: the spec gives no value (`REG_INIT`,
10_state.md R28, 92_eei_decisions.md D5) and recommends zero for simulation only. Log entry 4. -/
def resetRegister : Word := 0#32

/-- What a memory cell that nothing has written reads as. DESIGN CHOICE, unsafe: the spec gives no value
(`MEM_INIT`, 10_state.md R28, 92_eei_decisions.md D6) and recommends zero for simulation only. Log entry 5. -/
def unlistedCell : Word := 0#32

end Sys2Proof.Machine
end

