-- ==== Sys2Proof/Machine/State.lean ====
section
/-! DEFINITION. The state of the CORE (10_state.md R13), the reasons a step can stop, and the state after reset.
There are no flags, no condition codes, no control registers, no other register files, no interrupts, no modes
and no saved exception registers (10_state.md R25 to R27, 60_exceptions.md R115, R117, R119). -/

namespace Sys2Proof.Machine

/-- Why a step answers a fault of the interface: never. The hardware's one exception, the fatal fault, has an
entry that the spec describes, so taking it is a next state whose status is `faulted` (60_exceptions.md R110,
R117); every other irregular condition is a soft-fail or a no-op (60_exceptions.md R109). The type has no
constructor, so nobody can raise one (safe). Log entry 23. -/
inductive Fault where
  deriving DecidableEq, Repr

/-- Why the model gives no meaning. -/
inductive Refusal where
  /-- An instruction without a meaning in this model. Raised by no arm of `exec`: every instruction of the table
  has its meaning. Safe. -/
  | notModelled (mnemonic : String)
  /-- Raised by `step`, and by the host's `construct`, for parameters outside the ranges the spec accepts: the
  spec has the model refuse them (00_scope.md R6, 92_eei_decisions.md D7). Safe: no run from an admissible
  instance meets it. -/
  | inadmissibleConfiguration
  /-- Raised by the host port for a register or memory access, or a second `run`, while a run is in progress:
  the spec gives it no meaning (70_reset_and_hazards.md R126, R134). Safe as a refusal; that a real host never
  does it is the unsafe part of log entry 11. -/
  | hostAccessDuringRun
  deriving DecidableEq, Repr

/-- The status (10_state.md R23). The fault record is the byte inside `faulted` (10_state.md R24). -/
inductive Status where
  /-- The next step may be taken, subject to the run-loop test. -/
  | running
  /-- The run has ended because `pc >= MEM_SIZE`. -/
  | halted
  /-- The run has ended by the fatal fault with the raw opcode byte `b`. -/
  | faulted (b : Byte)
  deriving DecidableEq, Repr

/-- One trace record: the instruction word and its raw opcode byte (41_cycle.md R82). -/
structure TraceRecord where
  word : Word
  opcode : Byte
  deriving DecidableEq, Repr

/-- The contents of the memory: pairs of a word address and the 32-bit cell there (20_memory.md R31, R37), the
addresses strictly rising, no entry equal to `unlistedCell`. The spec's smallest addressable unit is the whole
32-bit cell; it has no byte address and no byte order. Log entry 12. -/
abbrev Memory := List (Nat × Word)

/-- The whole state of one instance: the items of 10_state.md R13, the construction-time parameters of
10_state.md R26, and the trace output of 41_cycle.md R82. -/
structure State where
  /-- The parameters the instance was constructed with; no step changes them (70_reset_and_hazards.md R124). -/
  params : Params
  /-- The register file `RF`, register 0 first; its length is `REG_COUNT` (10_state.md R14). -/
  regs : List Word
  /-- The memory `MEM`, code and data alike (10_state.md R29). -/
  mem : Memory
  /-- The program counter, a word address; during dispatch already one past the fetched word
  (10_state.md R18). -/
  pc : Pc
  /-- The call stack `CS`, bottom first, the top the last element (10_state.md R21). -/
  calls : List Pc
  /-- The status with the fault record (10_state.md R23, R24). -/
  status : Status
  /-- The trace records emitted so far, oldest first: an output that no rule reads (41_cycle.md R82).
  DESIGN CHOICE, safe: the spec lets a model keep it. Log entry 16. -/
  trace : List TraceRecord
  deriving DecidableEq, Repr

/-- `REG_COUNT` of the instance: how many registers its file has (00_scope.md R6, 10_state.md R14). Log entry
20. -/
def State.regCount (s : State) : Nat := s.regs.length

/-- The machine right after reset, with the parameters of this hardware (10_state.md R28,
70_reset_and_hazards.md R123, R124): pc 0, the call stack empty, the status running. The registers and the
memory, whose values the spec leaves open, hold `resetRegister` and `unlistedCell` (log entries 4 and 5). -/
def State.reset : State where
  params := defaultParams
  regs := List.replicate defaultRegCount resetRegister
  mem := []
  pc := 0#32
  calls := []
  status := .running
  trace := []

end Sys2Proof.Machine
end

