-- ==== Sys2Proof/Machine/Ops.lean ====
section
/-! DEFINITION. The named operations every meaning is written over: the soft-fail accessors of registers and
memory, the call stack, the program counter, the trace, and taking the one exception. There is no return from
it (60_exceptions.md R118). -/

namespace Sys2Proof.Machine

/-! ### The memory as data -/

/-- The cell at a word address, whatever the memory size. -/
def Memory.read : Memory → Nat → Word
  | [], _ => unlistedCell
  | (b, w) :: m, a => if a = b then w else Memory.read m a

/-- Set the cell at a word address, keeping the canonical form: the addresses stay sorted, and writing what an
unlisted cell reads as removes the entry. -/
def Memory.write : Memory → Nat → Word → Memory
  | [], a, v => if v = unlistedCell then [] else [(a, v)]
  | (b, w) :: m, a, v =>
    if a < b then (if v = unlistedCell then (b, w) :: m else (a, v) :: (b, w) :: m)
    else if a = b then (if v = unlistedCell then m else (a, v) :: m)
    else (b, w) :: Memory.write m a v

/-- The canonical form of a memory: addresses strictly rising, no entry equal to what an unlisted cell reads
as. -/
abbrev Memory.wf (m : Memory) : Prop :=
  m.Pairwise (fun c d => c.1 < d.1) ∧ ∀ c ∈ m, c.2 ≠ unlistedCell

/-- The memory that a list of writes leaves in a memory of `size` cells that nothing has written before; a write
outside it is dropped, a later one wins. -/
def Memory.ofWrites (size : Nat) (image : List (Nat × Word)) : Memory :=
  image.foldl (fun m c => if c.1 < size then Memory.write m c.1 c.2 else m) []

/-! ### Registers and memory, as the machine accesses them -/

/-- `x[i]`, the soft-fail register read (10_state.md R15). -/
def State.getReg (s : State) (i : Byte) : Word :=
  if i.toNat < s.regCount then s.regs.getD i.toNat 0#32 else 0#32

/-- `x[i] <- v`, the soft-fail register write (10_state.md R16). -/
def State.setReg (s : State) (i : Byte) (v : Word) : State :=
  if i.toNat < s.regCount then { s with regs := s.regs.set i.toNat v } else s

/-- `MemRead(a, 32)`, the soft-fail memory read (20_memory.md R33). -/
def State.memRead (s : State) (a : Addr) : Word :=
  if a.toNat < s.params.memSize then Memory.read s.mem a.toNat else 0#32

/-- `MemWrite(a, 32, v)`, the soft-fail memory write (20_memory.md R34). -/
def State.memWrite (s : State) (a : Addr) (v : Word) : State :=
  if a.toNat < s.params.memSize then { s with mem := Memory.write s.mem a.toNat v } else s

/-! ### Program counter, call stack, status, trace -/

/-- `pc <- t`. -/
def State.setPc (s : State) (t : Pc) : State := { s with pc := t }

/-- The unconditional pre-increment after a fetch (41_cycle.md R73). It cannot wrap in a step of an admissible
instance (10_state.md R20). -/
def State.advancePc (s : State) : State := s.setPc (s.pc + 1#32)

/-- `push(v)`: append `v` as the new top entry (10_state.md R21). -/
def State.pushCall (s : State) (v : Pc) : State := { s with calls := s.calls ++ [v] }

/-- `pop()` with the test that guards it: nothing when the call stack is empty, else its top entry and the state
without it (10_state.md R21). -/
def State.popCall (s : State) : Option (Pc × State) :=
  match s.calls.getLast? with
  | none => none
  | some v => some (v, { s with calls := s.calls.dropLast })

/-- The call stack holds as many entries as a finite `STACK_DEPTH` allows; never so for the default, unbounded
stack (60_exceptions.md R122). Log entry 3. -/
def State.stackFull (s : State) : Bool :=
  match s.params.stackDepth with
  | none => false
  | some n => decide (n ≤ s.calls.length)

/-- Set the status. -/
def State.setStatus (s : State) (st : Status) : State := { s with status := st }

/-- Emit one trace record: the word and its raw opcode byte (41_cycle.md R82). -/
def State.emitTrace (s : State) (w : Word) : State :=
  { s with trace := s.trace ++ [{ word := w, opcode := opcodeField w }] }

/-- TAKING THE EXCEPTION, `raise Fault(b)`: the status becomes `faulted b` and nothing else changes; the pc
keeps its pre-incremented value, nothing is saved, control goes nowhere, the run loop stops
(60_exceptions.md R110, R111, R117). DESIGN CHOICE of the spec for the state after the fault (D10), safe: it adds
an observation that the original lacks. Log entry 9. -/
def State.raiseFault (s : State) (b : Byte) : State := s.setStatus (.faulted b)

end Sys2Proof.Machine
end

