-- ==== Sys2Proof/Machine/Accel.lean ====
section
/-! DEFINITION. FFT, ENC, DECRYPT and the unassigned opcode bytes (46_accel_and_unassigned.md R104 to R108):
each always takes the fatal fault with its own opcode byte. -/

namespace Sys2Proof.Machine

/-- FFT always takes the fatal fault; there is no transform unit (46_accel_and_unassigned.md R104). -/
def execFft (s : State) : Host.Outcome State Fault Refusal :=
  .next (s.raiseFault s.params.opc.fft)

/-- ENC always takes the fatal fault; there is no cipher (46_accel_and_unassigned.md R105). -/
def execEnc (s : State) : Host.Outcome State Fault Refusal :=
  .next (s.raiseFault s.params.opc.enc)

/-- DECRYPT always takes the fatal fault; there is no cipher (46_accel_and_unassigned.md R106). -/
def execDecrypt (s : State) : Host.Outcome State Fault Refusal :=
  .next (s.raiseFault s.params.opc.decrypt)

/-- A word whose opcode byte `b` is the code of no mnemonic takes the fatal fault with that byte
(46_accel_and_unassigned.md R107). -/
def execUnassigned (b : Byte) (s : State) : Host.Outcome State Fault Refusal :=
  .next (s.raiseFault b)

end Sys2Proof.Machine
end

