-- ==== Sys2Proof/Machine/Alu.lean ====
section
/-! DEFINITION. The arithmetic-logic unit: six pure, total functions on unsigned 32-bit values
(40_alu.md R63 to R69), each written as the spec does: the exact natural number, reduced to its low 32 bits.
The unit has no flag output and no logic function (40_alu.md R69). Only `aluAdd` and `aluInc` are reached by an
opcode; the other four are part of the unit (40_alu.md R70). -/

namespace Sys2Proof.Machine

/-- `ALU.add(a, b) = (a + b) mod 2^32` (40_alu.md R63). -/
def aluAdd (a b : Word) : Word := BitVec.ofNat 32 (a.toNat + b.toNat)

/-- `ALU.sub(a, b) = (a − b) mod 2^32`: `a − b` if `a >= b`, else `a − b + 2^32` (40_alu.md R64). -/
def aluSub (a b : Word) : Word :=
  if b.toNat ≤ a.toNat then BitVec.ofNat 32 (a.toNat - b.toNat)
  else BitVec.ofNat 32 (a.toNat + 2 ^ 32 - b.toNat)

/-- `ALU.mul(a, b) = (a × b) mod 2^32`: the high half of the product is discarded (40_alu.md R65). -/
def aluMul (a b : Word) : Word := BitVec.ofNat 32 (a.toNat * b.toNat)

/-- `ALU.div(a, b)`: the floor of the unsigned quotient, and 0 for a zero divisor (40_alu.md R66). -/
def aluDiv (a b : Word) : Word :=
  if b = 0#32 then 0#32 else BitVec.ofNat 32 (a.toNat / b.toNat)

/-- `ALU.inc(a) = (a + 1) mod 2^32` (40_alu.md R67). -/
def aluInc (a : Word) : Word := BitVec.ofNat 32 (a.toNat + 1)

/-- `ALU.dec(a) = (a − 1) mod 2^32`, which wraps on underflow (40_alu.md R68). -/
def aluDec (a : Word) : Word :=
  if a.toNat = 0 then BitVec.ofNat 32 (2 ^ 32 - 1) else BitVec.ofNat 32 (a.toNat - 1)

end Sys2Proof.Machine
end

