-- ==== Sys2Proof/Machine/Arith.lean ====
section
/-! DEFINITION. The arithmetic instructions (42_arith.md R83 to R88). A meaning is the dispatch part of a step:
the word has been fetched from address `a` and `pc` is already `a + 1` (41_cycle.md R73). -/

namespace Sys2Proof.Machine

/-- ADD: both sources are read, then the destination is written (42_arith.md R83, 41_cycle.md R76). -/
def execAdd (r1 r2 r3 : Byte) (s : State) : Host.Outcome State Fault Refusal :=
  .next (s.setReg r1 (aluAdd (s.getReg r2) (s.getReg r3)))

/-- SUB always takes the fatal fault; it does not subtract (42_arith.md R84). -/
def execSub (s : State) : Host.Outcome State Fault Refusal :=
  .next (s.raiseFault s.params.opc.sub)

/-- MUL always takes the fatal fault; it does not multiply (42_arith.md R85). -/
def execMul (s : State) : Host.Outcome State Fault Refusal :=
  .next (s.raiseFault s.params.opc.mul)

/-- DIV always takes the fatal fault, whatever its operands (42_arith.md R86). -/
def execDiv (s : State) : Host.Outcome State Fault Refusal :=
  .next (s.raiseFault s.params.opc.div)

/-- INC: reads and writes the same register (42_arith.md R87). -/
def execInc (r1 : Byte) (s : State) : Host.Outcome State Fault Refusal :=
  .next (s.setReg r1 (aluInc (s.getReg r1)))

/-- DEC always takes the fatal fault; it does not decrement (42_arith.md R88). -/
def execDec (s : State) : Host.Outcome State Fault Refusal :=
  .next (s.raiseFault s.params.opc.dec)

end Sys2Proof.Machine
end

