-- ==== Sys2Proof/Machine/Operands.lean ====
section
/-! DEFINITION. The operand forms. A register-index operand is the raw 8-bit field itself, used as the index of
`State.getReg` and `State.setReg`. There are three non-register operands (30_encoding.md R50), each one raw byte,
zero-extended: no sign extension, no scaling, no PC-relative form. -/

namespace Sys2Proof.Machine

/-- `zext_16(field)`: the address of LD (field `r2`) and of ST (field `r1`); the one addressing mode, absolute
(30_encoding.md R50, 45_loadstore.md R102). -/
def memOperand (field : Byte) : Addr := field.setWidth 16

/-- `zext_PC_WIDTH(field)`: the target of CALL (field `r1`), an absolute word address 0 … 255
(30_encoding.md R50, 44_control.md R96). -/
def targetOperand (field : Byte) : Pc := field.setWidth 32

/-- The 16-bit address a fetch presents to the memory: `pc[15:0]` (20_memory.md R35, R46). -/
def fetchAddress (pc : Pc) : Addr := pc.setWidth 16

end Sys2Proof.Machine
end

