-- ==== Sys2Proof/Machine/Control.lean ====
section
/-! DEFINITION. The control-transfer instructions (44_control.md R93 to R97). There are no delay slots: a
written `pc` is the address of the next fetch (70_reset_and_hazards.md R128). -/

namespace Sys2Proof.Machine

/-- JMP always takes the fatal fault; it does not jump (44_control.md R93). -/
def execJmp (s : State) : Host.Outcome State Fault Refusal :=
  .next (s.raiseFault s.params.opc.jmp)

/-- BEQ always takes the fatal fault; nothing is compared (44_control.md R94). -/
def execBeq (s : State) : Host.Outcome State Fault Refusal :=
  .next (s.raiseFault s.params.opc.beq)

/-- BNE always takes the fatal fault; nothing is compared (44_control.md R95). -/
def execBne (s : State) : Host.Outcome State Fault Refusal :=
  .next (s.raiseFault s.params.opc.bne)

/-- CALL: push the pre-incremented pc, then go to the target (44_control.md R96). On the full stack of an
instance with a finite `STACK_DEPTH` it pushes nothing, leaves the pc where the pre-increment put it and takes
the fatal fault with the byte `OPC(CALL)` (60_exceptions.md R122). -/
def execCall (r1 : Byte) (s : State) : Host.Outcome State Fault Refusal :=
  if s.stackFull then .next (s.raiseFault s.params.opc.call)
  else .next ((s.pushCall s.pc).setPc (targetOperand r1))

/-- RET: pop the call stack into the pc; with an empty call stack a defined no-op (44_control.md R97,
60_exceptions.md R114). -/
def execRet (s : State) : Host.Outcome State Fault Refusal :=
  match s.popCall with
  | none => .next s
  | some (v, t) => .next (t.setPc v)

end Sys2Proof.Machine
end

