-- ==== Sys2Proof/Machine/LoadStore.lean ====
section
/-! DEFINITION. The load and the store (45_loadstore.md R100 to R103): one whole cell each, absolute
addressing. -/

namespace Sys2Proof.Machine

/-- LD: field `r2` is the address, field `r1` the destination register (45_loadstore.md R100). -/
def execLd (r1 r2 : Byte) (s : State) : Host.Outcome State Fault Refusal :=
  .next (s.setReg r1 (s.memRead (memOperand r2)))

/-- ST: field `r1` is the address, field `r2` the source register (45_loadstore.md R101). -/
def execSt (r1 r2 : Byte) (s : State) : Host.Outcome State Fault Refusal :=
  .next (s.memWrite (memOperand r1) (s.getReg r2))

end Sys2Proof.Machine
end

