-- ==== Sys2Proof/Machine/Logic.lean ====
section
/-! DEFINITION. The logic instructions (43_logic.md R89 to R92): declared with a code, not executable. Each
always takes the fatal fault with its own opcode byte. -/

namespace Sys2Proof.Machine

/-- AND always takes the fatal fault; it computes no bitwise and (43_logic.md R89). -/
def execAnd (s : State) : Host.Outcome State Fault Refusal :=
  .next (s.raiseFault s.params.opc.and)

/-- OR always takes the fatal fault; it computes no bitwise or (43_logic.md R90). -/
def execOr (s : State) : Host.Outcome State Fault Refusal :=
  .next (s.raiseFault s.params.opc.or)

/-- XOR always takes the fatal fault; it computes no exclusive or (43_logic.md R91). -/
def execXor (s : State) : Host.Outcome State Fault Refusal :=
  .next (s.raiseFault s.params.opc.xor)

/-- NOT always takes the fatal fault; it computes no complement (43_logic.md R92). -/
def execNot (s : State) : Host.Outcome State Fault Refusal :=
  .next (s.raiseFault s.params.opc.not)

end Sys2Proof.Machine
end

