-- ==== Sys2Proof/Machine/Dispatch.lean ====
section
/-! DEFINITION. The dispatch of a step: one arm per constructor of `Instr` (41_cycle.md R75), total as the
spec's dispatch is. -/

namespace Sys2Proof.Machine

def exec (i : Instr) (s : State) : Host.Outcome State Fault Refusal :=
  match i with
  | .add r1 r2 r3 => Sys2Proof.Machine.execAdd r1 r2 r3 s
  | .sub => Sys2Proof.Machine.execSub s
  | .mul => Sys2Proof.Machine.execMul s
  | .div => Sys2Proof.Machine.execDiv s
  | .inc r1 => Sys2Proof.Machine.execInc r1 s
  | .dec => Sys2Proof.Machine.execDec s
  | .and => Sys2Proof.Machine.execAnd s
  | .or => Sys2Proof.Machine.execOr s
  | .xor => Sys2Proof.Machine.execXor s
  | .not => Sys2Proof.Machine.execNot s
  | .jmp => Sys2Proof.Machine.execJmp s
  | .beq => Sys2Proof.Machine.execBeq s
  | .bne => Sys2Proof.Machine.execBne s
  | .call r1 => Sys2Proof.Machine.execCall r1 s
  | .ret => Sys2Proof.Machine.execRet s
  | .ld r1 r2 => Sys2Proof.Machine.execLd r1 r2 s
  | .st r1 r2 => Sys2Proof.Machine.execSt r1 r2 s
  | .fft => Sys2Proof.Machine.execFft s
  | .enc => Sys2Proof.Machine.execEnc s
  | .decrypt => Sys2Proof.Machine.execDecrypt s
  | .unassigned b => Sys2Proof.Machine.execUnassigned b s

end Sys2Proof.Machine
end

