-- ==== Sys2Proof/Machine/Fetch.lean ====
section
/-! DEFINITION. The fetch of a step, and placing an instruction word where the next fetch finds it. -/

namespace Sys2Proof.Machine

/-- The fetch: the whole cell at the pc, through the memory's own read (41_cycle.md R72, 20_memory.md R35). It is
the read of port A, the LD or ST of the same step the access of port B, later in the step (20_memory.md R46). -/
def State.fetchWord (s : State) : Word := s.memRead (fetchAddress s.pc)

/-- The state at dispatch: the pc incremented and the trace record of the fetched word emitted
(41_cycle.md R71, R73, R82). -/
def State.afterFetch (s : State) : State := s.advancePc.emitTrace s.fetchWord

/-- `s` with a word stored where the very next fetch reads it. A step fetches only while the status is running
and the pc is below `MEM_SIZE` (41_cycle.md R71): where that does not hold, the status becomes running and the
pc 0. At reset both hold, so only the cell at address 0 changes. The store stands for the host's loading
(70_reset_and_hazards.md R125). Log entry 19. -/
def State.placeWord (s : State) (w : Word) : State :=
  let pc := if s.pc.toNat < s.params.memSize then s.pc else 0#32
  ((s.setStatus .running).setPc pc).memWrite (fetchAddress pc) w

end Sys2Proof.Machine
end

