-- ==== Sys2Proof/Machine/Cycle.lean ====
section
/-! DEFINITION. The fetch-decode-execute step and one pass of the run loop (41_cycle.md R71 to R81). -/

namespace Sys2Proof.Machine

/-- The parameters and the register count of the instance are in the ranges the spec accepts
(00_scope.md R6). -/
def State.configOk (s : State) : Bool := s.params.admissible s.regCount

/-- The step of 41_cycle.md R71: fetch, pre-increment, trace, decode, dispatch. It is taken only when the status
is running and `pc < MEM_SIZE`. -/
def instructionCycle (s : State) : Host.Outcome State Fault Refusal :=
  exec (decode s.params.opc s.fetchWord) s.afterFetch

/-- One pass of the run loop (41_cycle.md R79). A run that has ended executes nothing: `halted` and `faulted` are
absorbing (10_state.md R23, 70_reset_and_hazards.md R127). A running CORE makes the loop test first: with
`pc >= MEM_SIZE` the run ends normally (41_cycle.md R80), else one step is taken. An inadmissible instance is
refused (92_eei_decisions.md D7).
DESIGN CHOICE: setting `halted` is a pass of its own, and a pass over an ended run answers the same state. Safe:
every state a run passes through is the spec's. Log entries 7 and 8. -/
def runLoopPass (s : State) : Host.Outcome State Fault Refusal :=
  if s.configOk then
    match s.status with
    | .faulted _ => .next s
    | .halted => .next s
    | .running =>
      if s.params.memSize ≤ s.pc.toNat then .next (s.setStatus .halted) else instructionCycle s
  else .refused .inadmissibleConfiguration

end Sys2Proof.Machine
end

