-- ==== Sys2Proof/Machine/Step.lean ====
section
/-! DEFINITION. The step of the machine, and the host's way to run one given word. -/

namespace Sys2Proof.Machine

/-- One step: one pass of the run loop (41_cycle.md R79). -/
def step (s : State) : Host.Outcome State Fault Refusal := runLoopPass s

/-- `s` with the instruction word in the low `nbits` bits of `w` where `step` fetches its next instruction. -/
def State.withFetchWord (s : State) (nbits w : Nat) : State := s.placeWord (tableWord nbits w)

end Sys2Proof.Machine
end

