-- ==== Sys2Proof/Machine/HostPort.lean ====
section
/-! DEFINITION. The host interface at transaction level (70_reset_and_hazards.md R123 to R127, R134): what the
external caller may do to an instance, and when. The CORE does not start on its own after a reset: it waits for
`run`; from then on it makes passes of the run loop until the run has ended, and the host has no other move than
reset. Signals, handshakes and clocking are left open by the spec (92_eei_decisions.md D11) and are not
modelled. Log entry 11. -/

namespace Sys2Proof.Machine

/-- How the end of a run reaches the host (60_exceptions.md R117, 70_reset_and_hazards.md R126). -/
inductive RunEnd where
  /-- `run` returns: the status is `halted`. -/
  | returned
  /-- The host is signalled with `FAULT_STATUS` and the raw opcode byte: the status is `faulted b`. -/
  | signalled (faultStatus : Nat) (b : Byte)
  deriving DecidableEq, Repr

/-- What the host learns of an ended run; nothing while the status is running (10_state.md R26). -/
def State.runEnd (s : State) : Option RunEnd :=
  match s.status with
  | .running => none
  | .halted => some .returned
  | .faulted b => some (.signalled s.params.faultStatus b)

/-- The port bit `halted` (92_eei_decisions.md D9). -/
def State.haltedPort (s : State) : Bool := s.status == .halted

/-- The port bit `fault` (92_eei_decisions.md D9). -/
def State.faultPort (s : State) : Bool :=
  match s.status with
  | .running => false
  | .halted => false
  | .faulted _ => true

/-- The port byte `fault_opcode`, valid while `fault` is set (92_eei_decisions.md D9). -/
def State.faultOpcodePort (s : State) : Option Byte :=
  match s.status with
  | .running => none
  | .halted => none
  | .faulted b => some b

/-- The launch state of an instance (10_state.md R28): `REG_INIT` is the list of its registers, so its length is
`REG_COUNT`; `MEM_INIT` is given as a list of writes into a memory that reads `unlistedCell` everywhere. -/
def State.launch (p : Params) (regInit : List Word) (memInit : List (Nat × Word)) : State where
  params := p
  regs := regInit
  mem := Memory.ofWrites p.memSize memInit
  pc := 0#32
  calls := []
  status := .running
  trace := []

/-- A reset of an instance (70_reset_and_hazards.md R123, R124): pc 0, the call stack empty, the status running
and so no fault record; the sizes unchanged. Whether it clears the registers and the memory is not given, so what
they hold after it are arguments (92_eei_decisions.md D14, 93_implementation_defined.md U6): `regInit`, cut or
filled to `REG_COUNT` registers, and `memInit`. The trace, an output already delivered, stays. Log entry 15. -/
def State.hardReset (s : State) (regInit : List Word) (memInit : List (Nat × Word)) : State where
  params := s.params
  regs := regInit.takeD s.regCount 0#32
  mem := Memory.ofWrites s.params.memSize memInit
  pc := 0#32
  calls := []
  status := .running
  trace := s.trace

/-- An instance as its host sees it: the CORE and whether a run is in progress. -/
structure HostSession where
  core : State
  inRun : Bool
  deriving DecidableEq, Repr

/-- The transactions of the host interface, and no others (70_reset_and_hazards.md R126). -/
inductive HostRequest where
  | construct (p : Params) (regInit : List Word) (memInit : List (Nat × Word))
  | reset (regInit : List Word) (memInit : List (Nat × Word))
  | memSet (a : Addr) (v : Word)
  | memGet (a : Addr)
  | memSize
  | regSet (i : Byte) (v : Word)
  | regGet (i : Byte)
  | run
  deriving DecidableEq, Repr

/-- What a transaction answers. No answer holds the pc or an entry of the call stack: the host cannot read them
(10_state.md R22, 70_reset_and_hazards.md R126). -/
inductive HostReply where
  | done
  | word (v : Word)
  | size (n : Nat)
  | started
  | ended (e : RunEnd)
  deriving DecidableEq, Repr

/-- A transaction that is allowed only while no run is in progress; during a run the spec gives it no meaning and
it is refused (70_reset_and_hazards.md R126, R134). -/
def HostSession.whenIdle (h : HostSession) (answer : HostSession × HostReply) :
    Host.Outcome (HostSession × HostReply) Fault Refusal :=
  if h.inRun then .refused .hostAccessDuringRun else .next answer

/-- One transaction of the host (70_reset_and_hazards.md R126). Construction refuses sizes outside the accepted
ranges (92_eei_decisions.md D7). Construction and reset are allowed at any time and abandon a run; `run` on an
ended instance executes nothing and reports the same end again (70_reset_and_hazards.md R127). -/
def HostSession.request (h : HostSession) : HostRequest → Host.Outcome (HostSession × HostReply) Fault Refusal
  | .construct p regInit memInit =>
    if p.admissible regInit.length then .next (⟨State.launch p regInit memInit, false⟩, .done)
    else .refused .inadmissibleConfiguration
  | .reset regInit memInit => .next (⟨h.core.hardReset regInit memInit, false⟩, .done)
  | .memSet a v => h.whenIdle (⟨h.core.memWrite a v, false⟩, .done)
  | .memGet a => h.whenIdle (h, .word (h.core.memRead a))
  | .memSize => .next (h, .size h.core.params.memSize)
  | .regSet i v => h.whenIdle (⟨h.core.setReg i v, false⟩, .done)
  | .regGet i => h.whenIdle (h, .word (h.core.getReg i))
  | .run =>
    match h.core.runEnd with
    | none => h.whenIdle (⟨h.core, true⟩, .started)
    | some e => h.whenIdle (h, .ended e)

/-- What the CORE does by itself between two transactions: nothing while no run is in progress
(70_reset_and_hazards.md R123), else one step, and when the run has ended the host is told
(60_exceptions.md R117). -/
def HostSession.tick (h : HostSession) : Host.Outcome (HostSession × Option RunEnd) Fault Refusal :=
  if h.inRun then
    match step h.core with
    | .next s => .next (⟨s, s.runEnd.isNone⟩, s.runEnd)
    | .fault f => .fault f
    | .refused r => .refused r
  else .next (h, none)

end Sys2Proof.Machine
end

