-- ==== Sys2Proof/Safety.lean ====
section
/-! DEFINITION. The terms in which claims speak of runs: the invariant of the CORE, and what a run of some
number of steps leaves. A run is safe while it is not faulted; it may never end (00_scope.md R11). -/

namespace Sys2Proof.Machine

/-- The run has not ended by the fatal fault (60_exceptions.md R110). -/
def State.NotFaulted (s : State) : Prop := ∀ b, s.status ≠ .faulted b

/-- The run has ended, normally or by the fatal fault (41_cycle.md R81). -/
def State.Ended (s : State) : Prop := s.status ≠ .running

/-- `t` is the state after `n` steps from `s`, each of which answers a next state. It is what the interface's own
`Host.Core.run` says (`runsTo_iff_core_run`, Sys2Proof/Laws/Step.lean). -/
def RunsTo : Nat → State → State → Prop
  | 0, s, t => t = s
  | n + 1, s, t => ∃ u, step s = .next u ∧ RunsTo n u t

/-- What holds of every state that a run of an admissible instance passes through. -/
structure State.Inv (s : State) : Prop where
  /-- The construction-time sizes are in the accepted ranges (00_scope.md R6). -/
  config : s.configOk = true
  /-- The memory is in its canonical form. -/
  memCanonical : Memory.wf s.mem
  /-- No cell outside the memory is listed (20_memory.md R34). -/
  memInRange : ∀ c ∈ s.mem, c.1 < s.params.memSize
  /-- `0 <= pc <= max(MEM_SIZE, 255)` (10_state.md R20). -/
  pcRange : s.pc.toNat ≤ max s.params.memSize 255
  /-- Each call-stack entry lies in 1 … `MEM_SIZE` (10_state.md R22). -/
  callsRange : ∀ v ∈ s.calls, 1 ≤ v.toNat ∧ v.toNat ≤ s.params.memSize
  /-- A finite call stack is never over its capacity (60_exceptions.md R122). -/
  callsDepth : ∀ n, s.params.stackDepth = some n → s.calls.length ≤ n
  /-- The status is `halted` only with `pc >= MEM_SIZE` (41_cycle.md R80, R81). -/
  haltedPc : s.status = .halted → s.params.memSize ≤ s.pc.toNat
  /-- A faulted CORE stands one past the faulting word, which was in the memory (41_cycle.md R81). -/
  faultedPc : ∀ b, s.status = .faulted b → 1 ≤ s.pc.toNat ∧ s.pc.toNat ≤ s.params.memSize
  /-- The recorded byte is that of no dispatched instruction, but for CALL on a full finite stack
  (60_exceptions.md R112, R122). -/
  faultedByte : ∀ b, s.status = .faulted b →
    b ∉ s.params.opc.dispatchedCodes ∨ (b = s.params.opc.call ∧ s.stackFull = true)

end Sys2Proof.Machine
end

