-- ==== Sys2Proof/Certificates/Slice0/Obligations.lean ====
section
/-! DEFINITION. What is claimed of the model, for the provers. Each docstring names the rule of the spec that the
statement formalises, or says that it rests on a choice and names the log entry. In every per-instruction
statement the state is the one at dispatch, so its pc is already one past the fetched word (41_cycle.md R73). -/

open Sys2Proof Sys2Proof.Machine

/-! ### Registers, memory, arithmetic -/

/-- 10_state.md R15: an index below `REG_COUNT` reads the register's cell, any other index reads 0. -/
def Obligations.RegisterReadIsSoftFail : Prop :=
  ∀ (s : State) (i : Byte),
    (i.toNat < s.regCount → s.regs[i.toNat]? = some (s.getReg i)) ∧
    (s.regCount ≤ i.toNat → s.getReg i = 0#32)

/-- 10_state.md R16: an index below `REG_COUNT` has its cell written and nothing else changes; any other index
changes nothing at all. -/
def Obligations.RegisterWriteIsSoftFail : Prop :=
  ∀ (s : State) (i : Byte) (v : Word),
    (i.toNat < s.regCount →
      (s.setReg i v).regs[i.toNat]? = some v ∧
      (∀ k, k ≠ i.toNat → (s.setReg i v).regs[k]? = s.regs[k]?) ∧
      s.setReg i v = { s with regs := (s.setReg i v).regs }) ∧
    (s.regCount ≤ i.toNat → s.setReg i v = s)

/-- 20_memory.md R33: an address below `MEM_SIZE` reads its cell, any other address reads 0. -/
def Obligations.MemoryReadIsSoftFail : Prop :=
  ∀ (s : State) (a : Addr),
    (a.toNat < s.params.memSize → s.memRead a = Memory.read s.mem a.toNat) ∧
    (s.params.memSize ≤ a.toNat → s.memRead a = 0#32)

/-- 20_memory.md R34: an address below `MEM_SIZE` has its cell written and nothing else changes; any other address
changes nothing. -/
def Obligations.MemoryWriteIsSoftFail : Prop :=
  ∀ (s : State) (a : Addr) (v : Word), Memory.wf s.mem →
    (a.toNat < s.params.memSize →
      Memory.read (s.memWrite a v).mem a.toNat = v ∧
      (∀ n, n ≠ a.toNat → Memory.read (s.memWrite a v).mem n = Memory.read s.mem n) ∧
      s.memWrite a v = { s with mem := (s.memWrite a v).mem }) ∧
    (s.params.memSize ≤ a.toNat → s.memWrite a v = s)

/-- 20_memory.md R39, its last clause: writing the value a cell already holds changes nothing, the representation
of the memory included. -/
def Obligations.RewritingACellChangesNothing : Prop :=
  ∀ (s : State) (a : Addr), Memory.wf s.mem → s.memWrite a (s.memRead a) = s

/-- 40_alu.md R63, R64, R65: addition, subtraction and multiplication are modulo 2^32 on unsigned values. -/
def Obligations.AluAddSubMulWrap : Prop :=
  ∀ a b : Word,
    (aluAdd a b).toNat = (a.toNat + b.toNat) % 2 ^ 32 ∧
    (b.toNat ≤ a.toNat → (aluSub a b).toNat = a.toNat - b.toNat) ∧
    (a.toNat < b.toNat → (aluSub a b).toNat + b.toNat = a.toNat + 2 ^ 32) ∧
    (aluMul a b).toNat = (a.toNat * b.toNat) % 2 ^ 32

/-- 40_alu.md R66: unsigned truncating division, 0 for a zero divisor. -/
def Obligations.AluDivTruncatesAndDividesByZeroToZero : Prop :=
  ∀ a b : Word,
    (b ≠ 0#32 → (aluDiv a b).toNat = a.toNat / b.toNat) ∧ (b = 0#32 → aluDiv a b = 0#32)

/-- 40_alu.md R67, R68: increment and decrement wrap at the 32-bit boundary, agree with addition and subtraction of
1, and undo each other. -/
def Obligations.AluIncDecWrapAndInvert : Prop :=
  ∀ a : Word,
    (aluInc a).toNat = (a.toNat + 1) % 2 ^ 32 ∧ aluInc a = aluAdd a 1#32 ∧
    (1 ≤ a.toNat → (aluDec a).toNat = a.toNat - 1) ∧ (a = 0#32 → aluDec a = 0xFFFFFFFF#32) ∧
    aluDec a = aluSub a 1#32 ∧ aluDec (aluInc a) = a ∧ aluInc (aluDec a) = a

/-! ### Encoding -/

/-- 30_encoding.md R48: the four fields are the four bytes of the word, and the packing formula is the reverse. -/
def Obligations.FieldsAreTheFourBytes : Prop :=
  ∀ w : Word,
    (opcodeField w).toNat = w.toNat / 2 ^ 24 ∧
    (r1Field w).toNat = w.toNat / 2 ^ 16 % 2 ^ 8 ∧
    (r2Field w).toNat = w.toNat / 2 ^ 8 % 2 ^ 8 ∧
    (r3Field w).toNat = w.toNat % 2 ^ 8 ∧
    w = ((opcodeField w).setWidth 32 <<< 24) ||| ((r1Field w).setWidth 32 <<< 16) |||
      ((r2Field w).setWidth 32 <<< 8) ||| (r3Field w).setWidth 32

/-- 30_encoding.md R53: for every admissible opcode map, the opcode byte alone picks the instruction; the twenty
mnemonics and, for every other byte, the unassigned instruction with that byte. -/
def Obligations.OpcodeByteSelectsTheInstruction : Prop :=
  ∀ (opc : OpcodeMap) (w : Word), opc.admissible = true →
    (opcodeField w = opc.add → decode opc w = .add (r1Field w) (r2Field w) (r3Field w)) ∧
    (opcodeField w = opc.inc → decode opc w = .inc (r1Field w)) ∧
    (opcodeField w = opc.st → decode opc w = .st (r1Field w) (r2Field w)) ∧
    (opcodeField w = opc.call → decode opc w = .call (r1Field w)) ∧
    (opcodeField w = opc.ret → decode opc w = .ret) ∧
    (opcodeField w = opc.ld → decode opc w = .ld (r1Field w) (r2Field w)) ∧
    (opcodeField w = opc.sub → decode opc w = .sub) ∧
    (opcodeField w = opc.mul → decode opc w = .mul) ∧
    (opcodeField w = opc.div → decode opc w = .div) ∧
    (opcodeField w = opc.dec → decode opc w = .dec) ∧
    (opcodeField w = opc.and → decode opc w = .and) ∧
    (opcodeField w = opc.or → decode opc w = .or) ∧
    (opcodeField w = opc.xor → decode opc w = .xor) ∧
    (opcodeField w = opc.not → decode opc w = .not) ∧
    (opcodeField w = opc.jmp → decode opc w = .jmp) ∧
    (opcodeField w = opc.beq → decode opc w = .beq) ∧
    (opcodeField w = opc.bne → decode opc w = .bne) ∧
    (opcodeField w = opc.fft → decode opc w = .fft) ∧
    (opcodeField w = opc.enc → decode opc w = .enc) ∧
    (opcodeField w = opc.decrypt → decode opc w = .decrypt) ∧
    (opcodeField w ∉ opc.codes → decode opc w = .unassigned (opcodeField w))

/-- 30_encoding.md R57: the bytes 0x00 and 0xFF are unassigned under every admissible opcode map. -/
def Obligations.ZeroAndAllOnesAreUnassigned : Prop :=
  ∀ (opc : OpcodeMap) (w : Word), opc.admissible = true →
    (opcodeField w = 0x00#8 → decode opc w = .unassigned 0x00#8) ∧
    (opcodeField w = 0xFF#8 → decode opc w = .unassigned 0xFF#8)

/-- 30_encoding.md R54: two words that agree on the bits the instruction's format uses decode to the same
instruction, whatever their other bits. That a decoder ignores the other bits is a decision of the spec
(92_eei_decisions.md D17, log entry 17). -/
def Obligations.UnusedFieldsDoNotChangeTheDecoding : Prop :=
  ∀ (opc : OpcodeMap) (w v : Word),
    w &&& usedBits (decode opc w) = v &&& usedBits (decode opc w) → decode opc v = decode opc w

/-- Decode and encode agree (30_encoding.md R53, R55): for every admissible opcode map and every well-formed
instruction, with every operand at every value, decoding the encoded instruction gives it back. -/
def Obligations.DecodeInvertsEncode : Prop :=
  ∀ (opc : OpcodeMap) (i : Instr), opc.admissible = true → i.wf opc = true → decode opc (encode opc i) = i

/-- The other direction (30_encoding.md R54, R55): encoding what a word decodes to gives the word with the fields its
format does not use cleared, and a word decodes to a well-formed instruction. It rests on the spec's decision that
unused fields are ignored (92_eei_decisions.md D17, log entry 17). -/
def Obligations.EncodeOfDecodeIsTheCanonicalWord : Prop :=
  ∀ (opc : OpcodeMap) (w : Word),
    encode opc (decode opc w) = w &&& usedBits (decode opc w) ∧ (decode opc w).wf opc = true

/-- 30_encoding.md R53, 60_exceptions.md R112: under an admissible map a decoded instruction carries the word's own opcode byte, and it is
one of the six dispatched instructions exactly when that byte is one of their codes. -/
def Obligations.DecodedInstructionKeepsItsOpcodeByte : Prop :=
  ∀ (opc : OpcodeMap) (w : Word), opc.admissible = true →
    (decode opc w).opcodeByte opc = opcodeField w ∧
    ((decode opc w).dispatched = true ↔ opcodeField w ∈ opc.dispatchedCodes)

/-- Words written out from the encoding tables decode, under the default opcode map, to what they stand for: one of
each executable format and one of each family of faulting words. The numeric codes are the spec's choice (log
entry 1). -/
def Obligations.WrittenWordsDecode : Prop :=
  decode defaultOpcodeMap 0x01020101#32 = .add 2 1 1 ∧
  decode defaultOpcodeMap 0x0501BEEF#32 = .inc 1 ∧
  decode defaultOpcodeMap 0x11650100#32 = .st 101 1 ∧
  decode defaultOpcodeMap 0x10016400#32 = .ld 1 100 ∧
  decode defaultOpcodeMap 0x0EFF1234#32 = .call 255 ∧
  decode defaultOpcodeMap 0x0FFFFFFF#32 = .ret ∧
  decode defaultOpcodeMap 0x04010200#32 = .div ∧
  decode defaultOpcodeMap 0x0A010000#32 = .not ∧
  decode defaultOpcodeMap 0x0D000000#32 = .bne ∧
  decode defaultOpcodeMap 0x14000000#32 = .decrypt ∧
  decode defaultOpcodeMap 0x15000000#32 = .unassigned 0x15

/-! ### Each instruction: its encoding, its effect, its frame -/

/-- 42_arith.md R83. ADD always completes: the destination register, when the file has it, holds the sum modulo 2^32
of the two sources as they were; an out-of-range destination drops the result. Every other register, every memory
cell, the pc, the call stack, the status and the trace are unchanged. -/
def Obligations.AddWritesTheWrappedSum : Prop :=
  (∀ (opc : OpcodeMap) (w : Word), opc.admissible = true → opcodeField w = opc.add →
    decode opc w = .add (r1Field w) (r2Field w) (r3Field w)) ∧
  ∀ (r1 r2 r3 : Byte) (s : State), ∃ t, exec (.add r1 r2 r3) s = .next t ∧
    (r1.toNat < s.regCount →
      (t.getReg r1).toNat = ((s.getReg r2).toNat + (s.getReg r3).toNat) % 2 ^ 32) ∧
    (s.regCount ≤ r1.toNat → t = s) ∧
    (∀ i, i ≠ r1 → t.getReg i = s.getReg i) ∧
    t.regCount = s.regCount ∧ t = { s with regs := t.regs } ∧
    ∀ a, t.memRead a = s.memRead a

/-- 42_arith.md R87. INC always completes: the register, when the file has it, holds its old value plus 1 modulo
2^32; an out-of-range index changes nothing. Everything else is unchanged, whatever the unused fields hold. -/
def Obligations.IncWritesTheWrappedSuccessor : Prop :=
  (∀ (opc : OpcodeMap) (w : Word), opc.admissible = true → opcodeField w = opc.inc →
    decode opc w = .inc (r1Field w)) ∧
  ∀ (r1 : Byte) (s : State), ∃ t, exec (.inc r1) s = .next t ∧
    (r1.toNat < s.regCount → (t.getReg r1).toNat = ((s.getReg r1).toNat + 1) % 2 ^ 32) ∧
    (s.regCount ≤ r1.toNat → t = s) ∧
    (∀ i, i ≠ r1 → t.getReg i = s.getReg i) ∧
    t.regCount = s.regCount ∧ t = { s with regs := t.regs } ∧
    ∀ a, t.memRead a = s.memRead a

/-- 45_loadstore.md R100. LD always completes: the destination register, when the file has it, holds the whole cell
at the zero-extended address `r2`, or 0 for an address past the memory; an out-of-range destination drops the value.
Everything else is unchanged, the memory included. -/
def Obligations.LoadCopiesTheWholeCell : Prop :=
  (∀ (opc : OpcodeMap) (w : Word), opc.admissible = true → opcodeField w = opc.ld →
    decode opc w = .ld (r1Field w) (r2Field w)) ∧
  ∀ (r1 r2 : Byte) (s : State), ∃ t, exec (.ld r1 r2) s = .next t ∧
    (r1.toNat < s.regCount → r2.toNat < s.params.memSize → t.getReg r1 = Memory.read s.mem r2.toNat) ∧
    (r1.toNat < s.regCount → s.params.memSize ≤ r2.toNat → t.getReg r1 = 0#32) ∧
    (s.regCount ≤ r1.toNat → t = s) ∧
    (∀ i, i ≠ r1 → t.getReg i = s.getReg i) ∧
    t.regCount = s.regCount ∧ t = { s with regs := t.regs } ∧
    ∀ a, t.memRead a = s.memRead a

/-- 45_loadstore.md R101. ST always completes. It stores at the address `memOperand r1`, the field `r1`
zero-extended: a cell inside the memory holds the source register's value (0 for an out-of-range register), and every
other cell is unchanged; an address past the memory drops the write. Every register and everything else is
unchanged. -/
def Obligations.StoreWritesTheWholeCell : Prop :=
  (∀ (opc : OpcodeMap) (w : Word), opc.admissible = true → opcodeField w = opc.st →
    decode opc w = .st (r1Field w) (r2Field w)) ∧
  ∀ (r1 r2 : Byte) (s : State), Memory.wf s.mem → (memOperand r1).toNat = r1.toNat ∧
    ∃ t, exec (.st r1 r2) s = .next t ∧
    (r1.toNat < s.params.memSize → t.memRead (memOperand r1) = s.getReg r2) ∧
    (∀ a, a ≠ memOperand r1 → t.memRead a = s.memRead a) ∧
    (∀ n, n ≠ (memOperand r1).toNat → Memory.read t.mem n = Memory.read s.mem n) ∧
    (s.params.memSize ≤ r1.toNat → t = s) ∧
    t = { s with mem := t.mem } ∧ ∀ i, t.getReg i = s.getReg i

/-- 44_control.md R96. With room on the call stack (always so for the default, unbounded one) CALL completes: the
pre-incremented pc becomes the new top of the call stack and the pc the zero-extended target; no register, no memory
cell and nothing else changes. -/
def Obligations.CallPushesAndJumps : Prop :=
  (∀ (opc : OpcodeMap) (w : Word), opc.admissible = true → opcodeField w = opc.call →
    decode opc w = .call (r1Field w)) ∧
  ∀ (r1 : Byte) (s : State),
    (s.params.stackDepth = none ∨ ∃ n, s.params.stackDepth = some n ∧ s.calls.length < n) →
    ∃ t, exec (.call r1) s = .next t ∧ t.calls = s.calls ++ [s.pc] ∧ t.pc.toNat = r1.toNat ∧
      t = { s with calls := t.calls, pc := t.pc } ∧
      (∀ i, t.getReg i = s.getReg i) ∧ ∀ a, t.memRead a = s.memRead a

/-- 60_exceptions.md R122. On a finite call stack that is full, CALL pushes nothing, leaves the pc at its
pre-incremented value and takes the fatal fault with the byte `OPC(CALL)`. The finite stack is the spec's own
addition (92_eei_decisions.md D4, log entry 3). -/
def Obligations.CallOnAFullStackFaults : Prop :=
  ∀ (r1 : Byte) (s : State) (n : Nat), s.params.stackDepth = some n → n ≤ s.calls.length →
    exec (.call r1) s = .next { s with status := .faulted s.params.opc.call }

/-- 44_control.md R97. RET always completes: a non-empty call stack loses its top entry, which becomes the pc; with an
empty one nothing changes and nothing faults. No register and no memory cell changes. -/
def Obligations.ReturnPopsOrDoesNothing : Prop :=
  (∀ (opc : OpcodeMap) (w : Word), opc.admissible = true → opcodeField w = opc.ret → decode opc w = .ret) ∧
  ∀ s : State,
    (∀ (rest : List Pc) (v : Pc), s.calls = rest ++ [v] →
      exec .ret s = .next { s with calls := rest, pc := v }) ∧
    (s.calls = [] → exec .ret s = .next s)

/-- 42_arith.md R84, R85, R86, R88. SUB, MUL, DIV and DEC take the fatal fault with their own opcode byte, whatever
the operand fields: the status changes and nothing else does. -/
def Obligations.UndispatchedArithmeticFaults : Prop :=
  (∀ (opc : OpcodeMap) (w : Word), opc.admissible = true →
    (opcodeField w = opc.sub → decode opc w = .sub) ∧ (opcodeField w = opc.mul → decode opc w = .mul) ∧
    (opcodeField w = opc.div → decode opc w = .div) ∧ (opcodeField w = opc.dec → decode opc w = .dec)) ∧
  ∀ s : State,
    exec .sub s = .next { s with status := .faulted s.params.opc.sub } ∧
    exec .mul s = .next { s with status := .faulted s.params.opc.mul } ∧
    exec .div s = .next { s with status := .faulted s.params.opc.div } ∧
    exec .dec s = .next { s with status := .faulted s.params.opc.dec }

/-- 43_logic.md R89, R90, R91, R92. AND, OR, XOR and NOT take the fatal fault with their own opcode byte, and nothing
else changes. -/
def Obligations.LogicInstructionsFault : Prop :=
  (∀ (opc : OpcodeMap) (w : Word), opc.admissible = true →
    (opcodeField w = opc.and → decode opc w = .and) ∧ (opcodeField w = opc.or → decode opc w = .or) ∧
    (opcodeField w = opc.xor → decode opc w = .xor) ∧ (opcodeField w = opc.not → decode opc w = .not)) ∧
  ∀ s : State,
    exec .and s = .next { s with status := .faulted s.params.opc.and } ∧
    exec .or s = .next { s with status := .faulted s.params.opc.or } ∧
    exec .xor s = .next { s with status := .faulted s.params.opc.xor } ∧
    exec .not s = .next { s with status := .faulted s.params.opc.not }

/-- 44_control.md R93, R94, R95. JMP, BEQ and BNE take the fatal fault with their own opcode byte; the pc is not
redirected and nothing else changes. -/
def Obligations.JumpAndBranchesFault : Prop :=
  (∀ (opc : OpcodeMap) (w : Word), opc.admissible = true →
    (opcodeField w = opc.jmp → decode opc w = .jmp) ∧ (opcodeField w = opc.beq → decode opc w = .beq) ∧
    (opcodeField w = opc.bne → decode opc w = .bne)) ∧
  ∀ s : State,
    exec .jmp s = .next { s with status := .faulted s.params.opc.jmp } ∧
    exec .beq s = .next { s with status := .faulted s.params.opc.beq } ∧
    exec .bne s = .next { s with status := .faulted s.params.opc.bne }

/-- 46_accel_and_unassigned.md R104, R105, R106. FFT, ENC and DECRYPT take the fatal fault with their own opcode byte,
and nothing else changes. -/
def Obligations.AcceleratorInstructionsFault : Prop :=
  (∀ (opc : OpcodeMap) (w : Word), opc.admissible = true →
    (opcodeField w = opc.fft → decode opc w = .fft) ∧ (opcodeField w = opc.enc → decode opc w = .enc) ∧
    (opcodeField w = opc.decrypt → decode opc w = .decrypt)) ∧
  ∀ s : State,
    exec .fft s = .next { s with status := .faulted s.params.opc.fft } ∧
    exec .enc s = .next { s with status := .faulted s.params.opc.enc } ∧
    exec .decrypt s = .next { s with status := .faulted s.params.opc.decrypt }

/-- 46_accel_and_unassigned.md R107. Every byte that is the code of no mnemonic takes the fatal fault with that byte,
and nothing else changes; 0x00 and 0xFF are such bytes under every admissible map. -/
def Obligations.UnassignedByteFaults : Prop :=
  (∀ (opc : OpcodeMap) (w : Word), opc.admissible = true →
    (opcodeField w ∉ opc.codes → decode opc w = .unassigned (opcodeField w)) ∧
    0x00#8 ∉ opc.codes ∧ 0xFF#8 ∉ opc.codes) ∧
  ∀ (b : Byte) (s : State), exec (.unassigned b) s = .next { s with status := .faulted b }

/-- 30_encoding.md R61 (derived there): the idioms. RET on an empty stack and INC of an out-of-range register are
no-ops; ADD with one out-of-range source copies, with two it clears. -/
def Obligations.IdiomsDoWhatTheyAreUsedFor : Prop :=
  ∀ (s : State) (d r o : Byte), s.regCount ≤ o.toNat → d.toNat < s.regCount →
    (s.calls = [] → exec .ret s = .next s) ∧
    exec (.inc o) s = .next s ∧
    (∃ t, exec (.add d r o) s = .next t ∧ t.getReg d = s.getReg r) ∧
    (∃ t, exec (.add d o o) s = .next t ∧ t.getReg d = 0#32)

/-! ### The step and the run loop -/

/-- 41_cycle.md R71 to R75. A step of a running CORE inside the memory runs the instruction that the word at the pc
decodes to, on the state with the pc incremented and the trace record of that word emitted. -/
def Obligations.StepRunsTheDecodedInstruction : Prop :=
  ∀ (s : State) (i : Instr), s.configOk = true → s.status = .running → s.pc.toNat < s.params.memSize →
    decode s.params.opc (s.memRead (s.pc.setWidth 16)) = i → i.wf s.params.opc = true →
    step s = exec i { s with
      pc := s.pc + 1#32
      trace := s.trace ++
        [⟨s.memRead (s.pc.setWidth 16), opcodeField (s.memRead (s.pc.setWidth 16))⟩] }

/-- 20_memory.md R35: the address of a fetch is in range and fits in 16 bits, so a fetch reads the cell at the pc. -/
def Obligations.FetchReadsTheCellAtThePc : Prop :=
  ∀ s : State, s.configOk = true → s.pc.toNat < s.params.memSize →
    (fetchAddress s.pc).toNat = s.pc.toNat ∧ s.fetchWord = Memory.read s.mem s.pc.toNat

/-- 60_exceptions.md R110. A running CORE that fetches a word whose opcode byte is none of the six dispatched codes
takes the fatal fault with that byte: the registers, the memory and the call stack keep their values, the pc is one
past the word, and no further step changes anything. The state after the fault is a decision of the spec
(92_eei_decisions.md D10, log entry 9); that an ended run answers its own state is the model's (log entry 8). -/
def Obligations.FaultingWordEndsTheRun : Prop :=
  ∀ s : State, s.configOk = true → s.status = .running → s.pc.toNat < s.params.memSize →
    opcodeField s.fetchWord ∉ s.params.opc.dispatchedCodes →
    ∃ t, step s = .next t ∧ t.status = .faulted (opcodeField s.fetchWord) ∧
      t.pc.toNat = s.pc.toNat + 1 ∧
      t = { s with pc := t.pc, status := t.status, trace := t.trace } ∧
      ∀ n u, RunsTo n t u → u = t

/-- 60_exceptions.md R112, R122. A step faults only on a word whose opcode byte is none of the six dispatched codes,
with that byte recorded, or on a CALL with a finite call stack that is full (the spec's own addition,
92_eei_decisions.md D4, log entry 3). -/
def Obligations.OnlyUndispatchedBytesAndFullStacksFault : Prop :=
  ∀ (s t : State) (b : Byte), s.status = .running → step s = .next t → t.status = .faulted b →
    s.pc.toNat < s.params.memSize ∧ b = opcodeField s.fetchWord ∧
    (b ∉ s.params.opc.dispatchedCodes ∨
      (b = s.params.opc.call ∧ ∃ n, s.params.stackDepth = some n ∧ n ≤ s.calls.length))

/-- 41_cycle.md R79, R80. The loop test: a running CORE with `pc >= MEM_SIZE` becomes halted and nothing else changes;
and a running CORE becomes halted in no other way. That the test comes before every step is a decision of the spec
(92_eei_decisions.md D8), that it is a step of its own the model's (log entry 7). -/
def Obligations.RunEndsNormallyExactlyPastTheMemory : Prop :=
  ∀ s : State, s.configOk = true → s.status = .running →
    (s.params.memSize ≤ s.pc.toNat → step s = .next { s with status := .halted }) ∧
    (∀ t, step s = .next t → t.status = .halted → s.params.memSize ≤ s.pc.toNat)

/-- 10_state.md R23, 70_reset_and_hazards.md R127. Halted and faulted are absorbing: however many steps are asked for,
nothing is executed. That a step over an ended run answers the same state is the model's choice (log entry 8). -/
def Obligations.EndedRunsExecuteNothing : Prop :=
  ∀ s : State, s.configOk = true → s.Ended → ∀ n, RunsTo n s s ∧ ∀ t, RunsTo n s t → t = s

/-- 60_exceptions.md R116. A faulting word in the last cell of the memory ends the run as faulted, not as halted, for
good. Derived by the spec from the order of the fault and the loop test (log entries 7, 8 and 9). -/
def Obligations.FaultInTheLastCellIsNotANormalEnd : Prop :=
  ∀ s : State, s.configOk = true → s.status = .running → s.pc.toNat + 1 = s.params.memSize →
    opcodeField s.fetchWord ∉ s.params.opc.dispatchedCodes →
    ∃ t, step s = .next t ∧ t.pc.toNat = s.params.memSize ∧
      ∀ n u, RunsTo n t u → u.status = .faulted (opcodeField s.fetchWord)

/-- From every state of an admissible instance the model has a run of every length: no step of it answers a fault or a
refusal. Of this the spec says that the dispatch is total (41_cycle.md section 1) and that an irregular condition other
than the fatal fault is a soft-fail or a no-op (60_exceptions.md section 1). The rest is the model's choice: that the
fatal fault answers a next state (log entries 9 and 23), that setting halted is a step of its own (log entry 7), and that
an ended CORE has further steps, each answering its own state (log entry 8). The spec takes no step after Halted or
Faulted. -/
def Obligations.EveryRunGoesOn : Prop :=
  ∀ s : State, s.configOk = true → ∀ n, ∃ t, RunsTo n s t

/-- 92_eei_decisions.md D7 (a decision of the spec, log entry 6): parameters outside the accepted ranges are
refused. -/
def Obligations.InadmissibleInstanceIsRefused : Prop :=
  ∀ s : State,
    (s.regCount = 0 ∨ 256 < s.regCount ∨ s.params.memSize = 0 ∨ 65536 < s.params.memSize ∨
      s.params.faultStatus = 0 ∨ ¬ s.params.opc.codes.Nodup ∨ 0x00#8 ∈ s.params.opc.codes ∨
      0xFF#8 ∈ s.params.opc.codes) →
    step s = .refused .inadmissibleConfiguration

/-- 10_state.md R19. Where each instruction of a running CORE leaves the pc, as a number, so without any wrap-around:
a CALL that has room at its target, a RET with a non-empty call stack at the popped entry, everything else one past
the instruction; a faulting instruction also leaves the status faulted. The pc after a fault is a decision of the spec
(92_eei_decisions.md D10, log entry 9), the full stack its own addition (D4, log entry 3). -/
def Obligations.PcAfterEachInstruction : Prop :=
  ∀ s t : State, s.status = .running → s.pc.toNat < s.params.memSize → step s = .next t →
    (∀ r1, decode s.params.opc s.fetchWord = .call r1 → s.stackFull = false → t.pc.toNat = r1.toNat) ∧
    (∀ r1, decode s.params.opc s.fetchWord = .call r1 → s.stackFull = true → t.pc.toNat = s.pc.toNat + 1) ∧
    (∀ rest v, decode s.params.opc s.fetchWord = .ret → s.calls = rest ++ [v] → t.pc = v) ∧
    (decode s.params.opc s.fetchWord = .ret → s.calls = [] → t.pc.toNat = s.pc.toNat + 1) ∧
    ((∀ r1, decode s.params.opc s.fetchWord ≠ .call r1) → decode s.params.opc s.fetchWord ≠ .ret →
      t.pc.toNat = s.pc.toNat + 1) ∧
    ((decode s.params.opc s.fetchWord).dispatched = false → t.status = .faulted (opcodeField s.fetchWord))

/-- 10_state.md R17, 45_loadstore.md R103. Only ADD, INC and LD change a register, and only the one their field `r1`
names; only ST changes a memory cell, and only the one its field `r1` addresses; only CALL and RET change the call
stack. -/
def Obligations.OnlyNamedInstructionsWriteStorage : Prop :=
  ∀ s t : State, Memory.wf s.mem → step s = .next t →
    (∀ i, t.getReg i ≠ s.getReg i →
      (∃ r2 r3, decode s.params.opc s.fetchWord = .add i r2 r3) ∨
      decode s.params.opc s.fetchWord = .inc i ∨ ∃ r2, decode s.params.opc s.fetchWord = .ld i r2) ∧
    (∀ a, t.memRead a ≠ s.memRead a →
      ∃ r1 r2, decode s.params.opc s.fetchWord = .st r1 r2 ∧ memOperand r1 = a) ∧
    (t.calls ≠ s.calls →
      (∃ r1, decode s.params.opc s.fetchWord = .call r1) ∨ decode s.params.opc s.fetchWord = .ret)

/-- 20_memory.md R45, 70_reset_and_hazards.md R129. A store into the next word is seen by the very next fetch: the step
after it runs the stored value as an instruction. -/
def Obligations.StoreIntoTheNextWordIsExecuted : Prop :=
  ∀ (s : State) (r1 r2 : Byte), s.configOk = true → Memory.wf s.mem → s.status = .running →
    s.pc.toNat < s.params.memSize → decode s.params.opc s.fetchWord = .st r1 r2 →
    r1.toNat = s.pc.toNat + 1 → r1.toNat < s.params.memSize →
    ∃ t, step s = .next t ∧ t.fetchWord = s.getReg r2 ∧
      step t = exec (decode s.params.opc (s.getReg r2)) t.afterFetch

/-! ### Invariants and whole-machine rules -/

/-- Every step keeps the invariant, from every state that has it: the memory canonical and inside its size, the pc at
most max(MEM_SIZE, 255) (10_state.md R20), each call-stack entry in 1 … MEM_SIZE (R22), the status consistent with the
pc and with the recorded byte (41_cycle.md R81, 60_exceptions.md R112). -/
def Obligations.StepKeepsTheInvariant : Prop :=
  ∀ s t : State, s.Inv → step s = .next t → t.Inv

/-- The reset state has the invariant. It holds the values that the model chose for the registers and the memory
(log entries 4 and 5). -/
def Obligations.ResetHasTheInvariant : Prop := State.reset.Inv

/-- 10_state.md R28: an admissible instance is launched with the pc 0, the call stack empty, the status running and no
fault byte, its registers those of `REG_INIT`, and every memory cell what the host wrote last to it; the launch state has
the invariant. The spec gives a cell that the host did not write no value: that it reads `unlistedCell` is the model's
choice (log entry 5), as is the empty trace (log entry 16). -/
def Obligations.EveryLaunchHasTheInvariant : Prop :=
  ∀ (p : Params) (regInit : List Word) (memInit : List (Nat × Word)), p.admissible regInit.length = true →
    (State.launch p regInit memInit).pc = 0#32 ∧ (State.launch p regInit memInit).calls = [] ∧
    (State.launch p regInit memInit).status = .running ∧
    (State.launch p regInit memInit).faultOpcodePort = none ∧
    (State.launch p regInit memInit).regs = regInit ∧ (State.launch p regInit memInit).params = p ∧
    (State.launch p regInit memInit).trace = [] ∧
    (∀ a, a < p.memSize →
      (∀ before v after, memInit = before ++ (a, v) :: after → (∀ c ∈ after, c.1 ≠ a) →
        Memory.read (State.launch p regInit memInit).mem a = v) ∧
      ((∀ c ∈ memInit, c.1 ≠ a) → Memory.read (State.launch p regInit memInit).mem a = unlistedCell)) ∧
    (State.launch p regInit memInit).Inv

/-- 10_state.md R14, R28, 00_scope.md R6: the values that the spec states for reset. The contents of the registers and
of the memory are not among them. -/
def Obligations.ResetStateHasTheStatedValues : Prop :=
  State.reset.pc = 0#32 ∧ State.reset.calls = [] ∧ State.reset.status = .running ∧
  State.reset.regCount = 16 ∧ State.reset.params.memSize = 1024 ∧ State.reset.params.stackDepth = none

/-- 70_reset_and_hazards.md R124: the sizes, the opcode map and every other parameter are constants of the instance. -/
def Obligations.ParametersNeverChange : Prop :=
  ∀ (n : Nat) (s t : State), RunsTo n s t → t.params = s.params ∧ t.regCount = s.regCount

/-- 20_memory.md R36: a program can store only to the word addresses 0 to 255, so along every run every cell from 256 on
keeps its value. -/
def Obligations.CellsAbove255AreNeverWritten : Prop :=
  ∀ (n : Nat) (s t : State), Memory.wf s.mem → RunsTo n s t → ∀ a : Addr, 256 ≤ a.toNat → t.memRead a = s.memRead a

/-- 10_state.md R21: push and pop leave the entries below unchanged. Along a run in which the call stack never gets
shorter than some bottom part of it, that part is untouched. -/
def Obligations.CallStackBelowIsUntouched : Prop :=
  ∀ (n : Nat) (s t : State) (base : List Pc), base <+: s.calls →
    (∀ k u, k ≤ n → RunsTo k s u → base.length ≤ u.calls.length) → RunsTo n s t → base <+: t.calls

/-- 44_control.md R98: CALL and RET pair last-in-first-out. After a CALL that had room, let any steps follow during which
its entry is not popped; a RET executed when that entry is again the top one resumes at the address after the CALL and
leaves the call stack as it was before it. -/
def Obligations.ReturnResumesAfterItsCall : Prop :=
  ∀ (s c u : State) (r1 : Byte) (n : Nat), s.status = .running → s.pc.toNat < s.params.memSize →
    decode s.params.opc s.fetchWord = .call r1 → s.stackFull = false → step s = .next c →
    (∀ k v, k ≤ n → RunsTo k c v → s.calls.length < v.calls.length) → RunsTo n c u →
    u.status = .running → u.pc.toNat < u.params.memSize → decode u.params.opc u.fetchWord = .ret →
    u.calls.length = s.calls.length + 1 →
    ∃ t, step u = .next t ∧ t.pc.toNat = s.pc.toNat + 1 ∧ t.calls = s.calls ∧ t.regs = u.regs ∧ t.mem = u.mem

/-- 70_reset_and_hazards.md R135 (derived there): every loop must pass through a CALL or a popping RET. Along a run that
executes no CALL, and no RET but on an empty call stack, and that has not ended, the pc walks up one word a step, so
no address comes back. -/
def Obligations.PcWalksUpWithoutCallAndRet : Prop :=
  ∀ (n : Nat) (s t : State), RunsTo n s t → t.status = .running →
    (∀ k u, k < n → RunsTo k s u →
      (decode u.params.opc u.fetchWord = .ret → u.calls = []) ∧
      ∀ r1, decode u.params.opc u.fetchWord ≠ .call r1) →
    t.pc.toNat = s.pc.toNat + n

/-- 10_state.md R22: the call stack is seen only through where RET goes. With the unbounded stack, a step that runs no RET
does the same on any other call stack: the same next state but for the entries below, and the same push. -/
def Obligations.CallStackIsHiddenExceptFromRet : Prop :=
  ∀ (s t : State) (other : List Pc), s.params.stackDepth = none →
    decode s.params.opc s.fetchWord ≠ .ret → step s = .next t →
    ∃ pushed, t.calls = s.calls ++ pushed ∧
      step { s with calls := other } = .next { t with calls := other ++ pushed }

/-- 41_cycle.md R82: one trace record for every fetch and none otherwise, and no rule reads the trace: a step from the
same state with another trace does the same. That the records are kept, oldest first, is the model's (log entry 16). -/
def Obligations.TraceIsWrittenAndNeverRead : Prop :=
  ∀ (s t : State) (other : List TraceRecord), step s = .next t →
    ∃ new, t.trace = s.trace ++ new ∧
      (s.status = .running → s.pc.toNat < s.params.memSize → new = [⟨s.fetchWord, opcodeField s.fetchWord⟩]) ∧
      (s.status ≠ .running ∨ s.params.memSize ≤ s.pc.toNat → new = []) ∧
      step { s with trace := other } = .next { t with trace := other ++ new }

/-! ### The host interface -/

/-- 70_reset_and_hazards.md R123. A reset is allowed at any time, during a run and after one: the pc is 0, the call stack
empty, the status running and so no fault record; the sizes are unchanged; and the CORE then waits: it does nothing
until the host asks for a run. Mapping construction to a reset is a decision of the spec (92_eei_decisions.md D14);
what the registers and the memory hold after it is open (log entry 15). -/
def Obligations.ResetAlwaysAppliesAndWaits : Prop :=
  ∀ (h : HostSession) (regInit : List Word) (memInit : List (Nat × Word)),
    ∃ h', h.request (.reset regInit memInit) = .next (h', .done) ∧
      h'.core.pc = 0#32 ∧ h'.core.calls = [] ∧ h'.core.status = .running ∧
      h'.core.params = h.core.params ∧ h'.core.regCount = h.core.regCount ∧ h'.tick = .next (h', none)

/-- 70_reset_and_hazards.md R134, 93_implementation_defined.md U10: during a run the host's accesses to memory and
registers, and a second run, have no meaning; only the size query is answered. A decision of the spec
(92_eei_decisions.md D11, log entry 11). -/
def Obligations.HostAccessDuringARunIsRefused : Prop :=
  ∀ (h : HostSession) (a : Addr) (i : Byte) (v : Word), h.inRun = true → h.core.status = .running →
    h.request (.memSet a v) = .refused .hostAccessDuringRun ∧
    h.request (.memGet a) = .refused .hostAccessDuringRun ∧
    h.request (.regSet i v) = .refused .hostAccessDuringRun ∧
    h.request (.regGet i) = .refused .hostAccessDuringRun ∧
    h.request .run = .refused .hostAccessDuringRun ∧
    h.request .memSize = .next (h, .size h.core.params.memSize)

/-- 70_reset_and_hazards.md R126: while no run is in progress the host reads back what it wrote, memory and registers
alike, and an out-of-range write is dropped. The transaction level is a decision of the spec (92_eei_decisions.md D11,
log entry 11). -/
def Obligations.HostReadsWhatItWrote : Prop :=
  ∀ (h : HostSession) (a : Addr) (i : Byte) (v : Word), h.inRun = false → Memory.wf h.core.mem →
    (∃ h', h.request (.memSet a v) = .next (h', .done) ∧ h'.inRun = false ∧ ∀ b,
      h'.request (.memGet b) =
        .next (h', .word (if b = a ∧ a.toNat < h.core.params.memSize then v else h.core.memRead b))) ∧
    (∃ h', h.request (.regSet i v) = .next (h', .done) ∧ h'.inRun = false ∧ ∀ j,
      h'.request (.regGet j) =
        .next (h', .word (if j = i ∧ i.toNat < h.core.regCount then v else h.core.getReg j)))

/-- 60_exceptions.md R117, 70_reset_and_hazards.md R126. A run that the host started goes on until its status is no longer
running; the host is then told once: a normal end, or `FAULT_STATUS`, which is not 0, with the raw opcode byte. How
the end is presented is a decision of the spec (92_eei_decisions.md D9, log entries 10 and 11). -/
def Obligations.RunReportsItsEnd : Prop :=
  ∀ (h : HostSession) (t : State), h.inRun = false → h.core.status = .running → step h.core = .next t →
    h.request .run = .next (⟨h.core, true⟩, .started) ∧
    (t.status = .running → HostSession.tick ⟨h.core, true⟩ = .next (⟨t, true⟩, none)) ∧
    (t.status = .halted → HostSession.tick ⟨h.core, true⟩ = .next (⟨t, false⟩, some .returned)) ∧
    (∀ b, t.status = .faulted b → ∃ n, n ≠ 0 ∧ n = h.core.params.faultStatus ∧
      HostSession.tick ⟨h.core, true⟩ = .next (⟨t, false⟩, some (.signalled n b)))

/-- 70_reset_and_hazards.md R127. Asking for a run again without a reset executes nothing: the instance is unchanged and
the host is told the same end. A decision of the spec (92_eei_decisions.md D14, log entries 11 and 15). -/
def Obligations.RunAgainExecutesNothing : Prop :=
  ∀ h : HostSession, h.inRun = false → h.core.Ended →
    ∃ e, h.core.runEnd = some e ∧ h.request .run = .next (h, .ended e) ∧ h.tick = .next (h, none)

/-- The model's own placing of a word (log entry 19): from every state that has the invariant, the step after it runs
exactly the instruction that the word decodes to. -/
def Obligations.PlacedWordRunsNext : Prop :=
  ∀ (s : State) (nbits w : Nat), s.Inv →
    step (s.withFetchWord nbits w) =
      exec (decode s.params.opc (tableWord nbits w)) (s.withFetchWord nbits w).afterFetch

/-- 70_reset_and_hazards.md R123 (construction), R126 (the host constructs at any time). Whatever the session was, a
construction with admissible sizes answers the launch state with no run in progress, and the CORE then waits; with other
sizes it is refused. The refusal is a decision of the spec (92_eei_decisions.md D7, log entry 6), the transaction level
too (D11, log entry 11). -/
def Obligations.ConstructionAnswersTheLaunchState : Prop :=
  ∀ (h : HostSession) (p : Params) (regInit : List Word) (memInit : List (Nat × Word)),
    (p.admissible regInit.length = true →
      h.request (.construct p regInit memInit) = .next (⟨State.launch p regInit memInit, false⟩, .done) ∧
      HostSession.tick ⟨State.launch p regInit memInit, false⟩ =
        .next (⟨State.launch p regInit memInit, false⟩, none) ∧
      HostSession.request ⟨State.launch p regInit memInit, false⟩ .run =
        .next (⟨State.launch p regInit memInit, true⟩, .started)) ∧
    (p.admissible regInit.length = false →
      h.request (.construct p regInit memInit) = .refused .inadmissibleConfiguration)
end

