-- ==== Sys2Proof/Laws/Alu.lean ====
section
/-! SUPPORT. The arithmetic-logic unit on bit vectors: the wraparound operations of the fixed-width type. -/

namespace Sys2Proof.Machine

theorem aluAdd_eq (a b : Word) : aluAdd a b = a + b := by
  apply BitVec.eq_of_toNat_eq
  simp [aluAdd, BitVec.toNat_add]

theorem aluInc_eq (a : Word) : aluInc a = a + 1#32 := by
  apply BitVec.eq_of_toNat_eq
  simp [aluInc, BitVec.toNat_add]

theorem aluMul_eq (a b : Word) : aluMul a b = a * b := by
  apply BitVec.eq_of_toNat_eq
  simp [aluMul, BitVec.toNat_mul]

theorem aluSub_eq (a b : Word) : aluSub a b = a - b := by
  apply BitVec.eq_of_toNat_eq
  have ha := a.isLt
  have hb := b.isLt
  unfold aluSub
  split <;> simp only [BitVec.toNat_ofNat, BitVec.toNat_sub] <;> omega

theorem aluDec_eq (a : Word) : aluDec a = a - 1#32 := by
  apply BitVec.eq_of_toNat_eq
  have ha := a.isLt
  unfold aluDec
  split <;> simp only [BitVec.toNat_ofNat, BitVec.toNat_sub] <;> omega

theorem aluDiv_zero (a : Word) : aluDiv a 0#32 = 0#32 := by simp [aluDiv]

end Sys2Proof.Machine
end

