-- ==== Sys2Proof/Laws/Decode.lean ====
section
/-! SUPPORT. The fields of a word as numbers, the packing formula as a sum, and each field of a packed word. -/

namespace Sys2Proof

theorem opcodeField_toNat (w : Word) : (opcodeField w).toNat = w.toNat / 2 ^ 24 % 2 ^ 8 := by
  simp [opcodeField, Nat.shiftRight_eq_div_pow]

theorem r1Field_toNat (w : Word) : (r1Field w).toNat = w.toNat / 2 ^ 16 % 2 ^ 8 := by
  simp [r1Field, Nat.shiftRight_eq_div_pow]

theorem r2Field_toNat (w : Word) : (r2Field w).toNat = w.toNat / 2 ^ 8 % 2 ^ 8 := by
  simp [r2Field, Nat.shiftRight_eq_div_pow]

theorem r3Field_toNat (w : Word) : (r3Field w).toNat = w.toNat % 2 ^ 8 := by
  simp [r3Field]

/-- The four fields of the packing formula do not overlap, so it is a sum. -/
theorem packWord_toNat (b x y z : Byte) :
    (packWord b x y z).toNat = b.toNat * 2 ^ 24 + x.toNat * 2 ^ 16 + y.toNat * 2 ^ 8 + z.toNat := by
  have hb := b.isLt
  have hx := x.isLt
  have hy := y.isLt
  have hz := z.isLt
  have shifted (v : Byte) (k : Nat) (h : k ≤ 24) : (v.setWidth 32 <<< k).toNat = 2 ^ k * v.toNat := by
    have hv := v.isLt
    have : 2 ^ k ≤ 2 ^ 24 := Nat.pow_le_pow_right (by decide) h
    have : 2 ^ k * v.toNat ≤ 2 ^ 24 * v.toNat := Nat.mul_le_mul_right _ this
    rw [BitVec.toNat_shiftLeft, BitVec.toNat_setWidth, Nat.shiftLeft_eq,
      Nat.mod_eq_of_lt (by omega : v.toNat < 2 ^ 32), Nat.mul_comm, Nat.mod_eq_of_lt (by omega)]
  have joined (k u v : Nat) (h : v < 2 ^ k) : 2 ^ k * u ||| v = 2 ^ k * u + v :=
    (Nat.two_pow_add_eq_or_of_lt h u).symm
  unfold packWord
  rw [BitVec.toNat_or, BitVec.toNat_or, BitVec.toNat_or, shifted b 24 (by omega), shifted x 16 (by omega),
    shifted y 8 (by omega), BitVec.toNat_setWidth, Nat.mod_eq_of_lt (by omega : z.toNat < 2 ^ 32),
    joined 24 _ _ (by omega),
    show 2 ^ 24 * b.toNat + 2 ^ 16 * x.toNat = 2 ^ 16 * (2 ^ 8 * b.toNat + x.toNat) by omega,
    joined 16 _ _ (by omega),
    show 2 ^ 16 * (2 ^ 8 * b.toNat + x.toNat) + 2 ^ 8 * y.toNat =
      2 ^ 8 * (2 ^ 8 * (2 ^ 8 * b.toNat + x.toNat) + y.toNat) by omega,
    joined 8 _ _ (by omega)]
  omega

@[simp] theorem opcodeField_packWord (b x y z : Byte) : opcodeField (packWord b x y z) = b := by
  apply BitVec.eq_of_toNat_eq
  have := b.isLt; have := x.isLt; have := y.isLt; have := z.isLt
  rw [opcodeField_toNat, packWord_toNat]; omega

@[simp] theorem r1Field_packWord (b x y z : Byte) : r1Field (packWord b x y z) = x := by
  apply BitVec.eq_of_toNat_eq
  have := b.isLt; have := x.isLt; have := y.isLt; have := z.isLt
  rw [r1Field_toNat, packWord_toNat]; omega

@[simp] theorem r2Field_packWord (b x y z : Byte) : r2Field (packWord b x y z) = y := by
  apply BitVec.eq_of_toNat_eq
  have := b.isLt; have := x.isLt; have := y.isLt; have := z.isLt
  rw [r2Field_toNat, packWord_toNat]; omega

@[simp] theorem r3Field_packWord (b x y z : Byte) : r3Field (packWord b x y z) = z := by
  apply BitVec.eq_of_toNat_eq
  have := b.isLt; have := x.isLt; have := y.isLt; have := z.isLt
  rw [r3Field_toNat, packWord_toNat]; omega

/-- A word is the packing of its own fields. -/
theorem packWord_fields (w : Word) :
    packWord (opcodeField w) (r1Field w) (r2Field w) (r3Field w) = w := by
  apply BitVec.eq_of_toNat_eq
  have := w.isLt
  rw [packWord_toNat, opcodeField_toNat, r1Field_toNat, r2Field_toNat, r3Field_toNat]; omega

theorem mem_all (m : Mnemonic) : m ∈ Mnemonic.all := by cases m <;> decide

/-- The mnemonic found for a byte has it as its code. -/
theorem code_of_mnemonicOf {opc : OpcodeMap} {b : Byte} {m : Mnemonic} (h : mnemonicOf opc b = some m) :
    opc.code m = b := by
  simpa using List.find?_some h

/-- No mnemonic is found exactly for the bytes that are no code. -/
theorem mnemonicOf_eq_none {opc : OpcodeMap} {b : Byte} : mnemonicOf opc b = none ↔ b ∉ opc.codes := by
  simp [mnemonicOf, OpcodeMap.codes, mem_all]

/-- Under a map with distinct codes each code finds its own mnemonic. -/
theorem mnemonicOf_code {opc : OpcodeMap} (h : opc.codes.Nodup) (m : Mnemonic) :
    mnemonicOf opc (opc.code m) = some m := by
  cases hf : mnemonicOf opc (opc.code m) with
  | none => exact absurd (List.mem_map_of_mem (mem_all m)) (mnemonicOf_eq_none.mp hf)
  | some n =>
    rw [List.inj_on_of_nodup_map h (mem_all n) (mem_all m) (code_of_mnemonicOf hf)]

/-- What a word decodes to, with its opcode byte: one case per arm of the decoder. -/
theorem decode_cases (opc : OpcodeMap) (w : Word) :
    (opcodeField w = opc.add ∧ decode opc w = .add (r1Field w) (r2Field w) (r3Field w)) ∨
    (opcodeField w = opc.sub ∧ decode opc w = .sub) ∨
    (opcodeField w = opc.mul ∧ decode opc w = .mul) ∨
    (opcodeField w = opc.div ∧ decode opc w = .div) ∨
    (opcodeField w = opc.inc ∧ decode opc w = .inc (r1Field w)) ∨
    (opcodeField w = opc.dec ∧ decode opc w = .dec) ∨
    (opcodeField w = opc.and ∧ decode opc w = .and) ∨
    (opcodeField w = opc.or ∧ decode opc w = .or) ∨
    (opcodeField w = opc.xor ∧ decode opc w = .xor) ∨
    (opcodeField w = opc.not ∧ decode opc w = .not) ∨
    (opcodeField w = opc.jmp ∧ decode opc w = .jmp) ∨
    (opcodeField w = opc.beq ∧ decode opc w = .beq) ∨
    (opcodeField w = opc.bne ∧ decode opc w = .bne) ∨
    (opcodeField w = opc.call ∧ decode opc w = .call (r1Field w)) ∨
    (opcodeField w = opc.ret ∧ decode opc w = .ret) ∨
    (opcodeField w = opc.ld ∧ decode opc w = .ld (r1Field w) (r2Field w)) ∨
    (opcodeField w = opc.st ∧ decode opc w = .st (r1Field w) (r2Field w)) ∨
    (opcodeField w = opc.fft ∧ decode opc w = .fft) ∨
    (opcodeField w = opc.enc ∧ decode opc w = .enc) ∨
    (opcodeField w = opc.decrypt ∧ decode opc w = .decrypt) ∨
    (opcodeField w ∉ opc.codes ∧ decode opc w = .unassigned (opcodeField w)) := by
  unfold decode
  cases h : mnemonicOf opc (opcodeField w) with
  | none => simp [mnemonicOf_eq_none.mp h]
  | some m => have := code_of_mnemonicOf h; cases m <;> simp [← this, OpcodeMap.code]

/-- What an admissible opcode map gives (30_encoding.md R52). -/
theorem OpcodeMap.admissible_iff (opc : OpcodeMap) :
    opc.admissible = true ↔ opc.codes.Nodup ∧ 0x00#8 ∉ opc.codes ∧ 0xFF#8 ∉ opc.codes := by
  simp [OpcodeMap.admissible, and_assoc]

theorem Params.admissible_iff (p : Params) (n : Nat) :
    p.admissible n = true ↔
      1 ≤ n ∧ n ≤ 256 ∧ 1 ≤ p.memSize ∧ p.memSize ≤ 65536 ∧ p.faultStatus ≠ 0 ∧ p.opc.admissible = true := by
  simp only [Params.admissible, Bool.and_eq_true, decide_eq_true_eq, and_assoc]

end Sys2Proof
end

