-- ==== Sys2Proof/Laws/State.lean ====
section
/-! SUPPORT. What each state update leaves in each field, one lemma per field per update, and the derived
readings (`regCount`, `getReg`, `memRead`, `stackFull`, `configOk`, `fetchWord`) under the updates that do not touch what
they read. -/

namespace Sys2Proof.Machine.State

variable (s : State)

/-! ### `setPc` -/

@[simp] theorem setPc_params (t : Pc) : (s.setPc t).params = s.params := rfl
@[simp] theorem setPc_regs (t : Pc) : (s.setPc t).regs = s.regs := rfl
@[simp] theorem setPc_mem (t : Pc) : (s.setPc t).mem = s.mem := rfl
@[simp] theorem setPc_pc (t : Pc) : (s.setPc t).pc = t := rfl
@[simp] theorem setPc_calls (t : Pc) : (s.setPc t).calls = s.calls := rfl
@[simp] theorem setPc_status (t : Pc) : (s.setPc t).status = s.status := rfl
@[simp] theorem setPc_trace (t : Pc) : (s.setPc t).trace = s.trace := rfl

/-! ### `advancePc` -/

@[simp] theorem advancePc_params : (s.advancePc).params = s.params := rfl
@[simp] theorem advancePc_regs : (s.advancePc).regs = s.regs := rfl
@[simp] theorem advancePc_mem : (s.advancePc).mem = s.mem := rfl
@[simp] theorem advancePc_pc : (s.advancePc).pc = s.pc + 1#32 := rfl
@[simp] theorem advancePc_calls : (s.advancePc).calls = s.calls := rfl
@[simp] theorem advancePc_status : (s.advancePc).status = s.status := rfl
@[simp] theorem advancePc_trace : (s.advancePc).trace = s.trace := rfl

/-! ### `pushCall` -/

@[simp] theorem pushCall_params (v : Pc) : (s.pushCall v).params = s.params := rfl
@[simp] theorem pushCall_regs (v : Pc) : (s.pushCall v).regs = s.regs := rfl
@[simp] theorem pushCall_mem (v : Pc) : (s.pushCall v).mem = s.mem := rfl
@[simp] theorem pushCall_pc (v : Pc) : (s.pushCall v).pc = s.pc := rfl
@[simp] theorem pushCall_calls (v : Pc) : (s.pushCall v).calls = s.calls ++ [v] := rfl
@[simp] theorem pushCall_status (v : Pc) : (s.pushCall v).status = s.status := rfl
@[simp] theorem pushCall_trace (v : Pc) : (s.pushCall v).trace = s.trace := rfl

/-! ### `setStatus` -/

@[simp] theorem setStatus_params (st : Status) : (s.setStatus st).params = s.params := rfl
@[simp] theorem setStatus_regs (st : Status) : (s.setStatus st).regs = s.regs := rfl
@[simp] theorem setStatus_mem (st : Status) : (s.setStatus st).mem = s.mem := rfl
@[simp] theorem setStatus_pc (st : Status) : (s.setStatus st).pc = s.pc := rfl
@[simp] theorem setStatus_calls (st : Status) : (s.setStatus st).calls = s.calls := rfl
@[simp] theorem setStatus_status (st : Status) : (s.setStatus st).status = st := rfl
@[simp] theorem setStatus_trace (st : Status) : (s.setStatus st).trace = s.trace := rfl

/-! ### `emitTrace` -/

@[simp] theorem emitTrace_params (w : Word) : (s.emitTrace w).params = s.params := rfl
@[simp] theorem emitTrace_regs (w : Word) : (s.emitTrace w).regs = s.regs := rfl
@[simp] theorem emitTrace_mem (w : Word) : (s.emitTrace w).mem = s.mem := rfl
@[simp] theorem emitTrace_pc (w : Word) : (s.emitTrace w).pc = s.pc := rfl
@[simp] theorem emitTrace_calls (w : Word) : (s.emitTrace w).calls = s.calls := rfl
@[simp] theorem emitTrace_status (w : Word) : (s.emitTrace w).status = s.status := rfl
@[simp] theorem emitTrace_trace (w : Word) : (s.emitTrace w).trace = s.trace ++ [{ word := w, opcode := opcodeField w }] := rfl

/-! ### `raiseFault` -/

@[simp] theorem raiseFault_params (b : Byte) : (s.raiseFault b).params = s.params := rfl
@[simp] theorem raiseFault_regs (b : Byte) : (s.raiseFault b).regs = s.regs := rfl
@[simp] theorem raiseFault_mem (b : Byte) : (s.raiseFault b).mem = s.mem := rfl
@[simp] theorem raiseFault_pc (b : Byte) : (s.raiseFault b).pc = s.pc := rfl
@[simp] theorem raiseFault_calls (b : Byte) : (s.raiseFault b).calls = s.calls := rfl
@[simp] theorem raiseFault_status (b : Byte) : (s.raiseFault b).status = .faulted b := rfl
@[simp] theorem raiseFault_trace (b : Byte) : (s.raiseFault b).trace = s.trace := rfl

/-! ### `setReg` -/

@[simp] theorem setReg_params (i : Byte) (v : Word) : (s.setReg i v).params = s.params := by
  unfold setReg; split <;> rfl
@[simp] theorem setReg_mem (i : Byte) (v : Word) : (s.setReg i v).mem = s.mem := by
  unfold setReg; split <;> rfl
@[simp] theorem setReg_pc (i : Byte) (v : Word) : (s.setReg i v).pc = s.pc := by
  unfold setReg; split <;> rfl
@[simp] theorem setReg_calls (i : Byte) (v : Word) : (s.setReg i v).calls = s.calls := by
  unfold setReg; split <;> rfl
@[simp] theorem setReg_status (i : Byte) (v : Word) : (s.setReg i v).status = s.status := by
  unfold setReg; split <;> rfl
@[simp] theorem setReg_trace (i : Byte) (v : Word) : (s.setReg i v).trace = s.trace := by
  unfold setReg; split <;> rfl

/-! ### `memWrite` -/

@[simp] theorem memWrite_params (a : Addr) (v : Word) : (s.memWrite a v).params = s.params := by
  unfold memWrite; split <;> rfl
@[simp] theorem memWrite_regs (a : Addr) (v : Word) : (s.memWrite a v).regs = s.regs := by
  unfold memWrite; split <;> rfl
@[simp] theorem memWrite_pc (a : Addr) (v : Word) : (s.memWrite a v).pc = s.pc := by
  unfold memWrite; split <;> rfl
@[simp] theorem memWrite_calls (a : Addr) (v : Word) : (s.memWrite a v).calls = s.calls := by
  unfold memWrite; split <;> rfl
@[simp] theorem memWrite_status (a : Addr) (v : Word) : (s.memWrite a v).status = s.status := by
  unfold memWrite; split <;> rfl
@[simp] theorem memWrite_trace (a : Addr) (v : Word) : (s.memWrite a v).trace = s.trace := by
  unfold memWrite; split <;> rfl

/-! ### `setReg` and `memWrite` on the field they change -/

theorem setReg_regs (i : Byte) (v : Word) : (s.setReg i v).regs = s.regs.set i.toNat v := by
  unfold setReg
  split
  · rfl
  · exact (List.set_eq_of_length_le (by simpa [regCount] using ‹¬ i.toNat < s.regCount›)).symm

theorem memWrite_mem (a : Addr) (v : Word) :
    (s.memWrite a v).mem = if a.toNat < s.params.memSize then Memory.write s.mem a.toNat v else s.mem := by
  unfold memWrite; split <;> rfl

/-! ### `popCall` -/

theorem popCall_eq_none : s.popCall = none ↔ s.calls = [] := by
  unfold popCall
  cases h : s.calls.getLast? with
  | none => simpa using h
  | some v => simp only [reduceCtorEq, false_iff]; rintro e; simp [e] at h

/-- All that a pop does: the entry it returns was the top, and only the call stack changes. -/
theorem popCall_eq_some {v : Pc} {t : State} :
    s.popCall = some (v, t) ↔ s.calls = t.calls ++ [v] ∧ t = { s with calls := t.calls } := by
  unfold popCall
  cases h : s.calls.getLast? with
  | none =>
    have e : s.calls = [] := by simpa using h
    simp [e]
  | some u =>
    obtain ⟨l, e⟩ : ∃ l, s.calls = l ++ [u] := ⟨_, (List.dropLast_append_getLast? u h).symm⟩
    simp only [e, List.dropLast_concat, Option.some.injEq, Prod.mk.injEq]
    constructor
    · rintro ⟨rfl, rfl⟩; exact ⟨rfl, rfl⟩
    · rintro ⟨h1, h2⟩
      obtain ⟨h3, h4⟩ := List.append_inj' h1 rfl
      exact ⟨by simpa using h4, by rw [h2, h3]⟩

/-! ### Readings under updates -/
@[simp] theorem setPc_regCount (t : Pc) : (s.setPc t).regCount = s.regCount := rfl
@[simp] theorem setPc_configOk (t : Pc) : (s.setPc t).configOk = s.configOk := rfl
@[simp] theorem setPc_getReg (t : Pc) (j : Byte) : (s.setPc t).getReg j = s.getReg j := rfl
@[simp] theorem setPc_memRead (t : Pc) (c : Addr) : (s.setPc t).memRead c = s.memRead c := rfl
@[simp] theorem setPc_stackFull (t : Pc) : (s.setPc t).stackFull = s.stackFull := rfl
@[simp] theorem advancePc_regCount : (s.advancePc).regCount = s.regCount := rfl
@[simp] theorem advancePc_configOk : (s.advancePc).configOk = s.configOk := rfl
@[simp] theorem advancePc_getReg (j : Byte) : (s.advancePc).getReg j = s.getReg j := rfl
@[simp] theorem advancePc_memRead (c : Addr) : (s.advancePc).memRead c = s.memRead c := rfl
@[simp] theorem advancePc_stackFull : (s.advancePc).stackFull = s.stackFull := rfl
@[simp] theorem pushCall_regCount (v : Pc) : (s.pushCall v).regCount = s.regCount := rfl
@[simp] theorem pushCall_configOk (v : Pc) : (s.pushCall v).configOk = s.configOk := rfl
@[simp] theorem pushCall_getReg (v : Pc) (j : Byte) : (s.pushCall v).getReg j = s.getReg j := rfl
@[simp] theorem pushCall_memRead (v : Pc) (c : Addr) : (s.pushCall v).memRead c = s.memRead c := rfl
@[simp] theorem setStatus_regCount (st : Status) : (s.setStatus st).regCount = s.regCount := rfl
@[simp] theorem setStatus_configOk (st : Status) : (s.setStatus st).configOk = s.configOk := rfl
@[simp] theorem setStatus_getReg (st : Status) (j : Byte) : (s.setStatus st).getReg j = s.getReg j := rfl
@[simp] theorem setStatus_memRead (st : Status) (c : Addr) : (s.setStatus st).memRead c = s.memRead c := rfl
@[simp] theorem setStatus_stackFull (st : Status) : (s.setStatus st).stackFull = s.stackFull := rfl
@[simp] theorem emitTrace_regCount (w : Word) : (s.emitTrace w).regCount = s.regCount := rfl
@[simp] theorem emitTrace_configOk (w : Word) : (s.emitTrace w).configOk = s.configOk := rfl
@[simp] theorem emitTrace_getReg (w : Word) (j : Byte) : (s.emitTrace w).getReg j = s.getReg j := rfl
@[simp] theorem emitTrace_memRead (w : Word) (c : Addr) : (s.emitTrace w).memRead c = s.memRead c := rfl
@[simp] theorem emitTrace_stackFull (w : Word) : (s.emitTrace w).stackFull = s.stackFull := rfl
@[simp] theorem raiseFault_regCount (b : Byte) : (s.raiseFault b).regCount = s.regCount := rfl
@[simp] theorem raiseFault_configOk (b : Byte) : (s.raiseFault b).configOk = s.configOk := rfl
@[simp] theorem raiseFault_getReg (b : Byte) (j : Byte) : (s.raiseFault b).getReg j = s.getReg j := rfl
@[simp] theorem raiseFault_memRead (b : Byte) (c : Addr) : (s.raiseFault b).memRead c = s.memRead c := rfl
@[simp] theorem raiseFault_stackFull (b : Byte) : (s.raiseFault b).stackFull = s.stackFull := rfl
@[simp] theorem setReg_regCount (i : Byte) (v : Word) : (s.setReg i v).regCount = s.regCount := by
  simp [regCount, setReg_regs]
@[simp] theorem setReg_configOk (i : Byte) (v : Word) : (s.setReg i v).configOk = s.configOk := by
  simp [configOk]
@[simp] theorem setReg_memRead (i : Byte) (v : Word) (c : Addr) : (s.setReg i v).memRead c = s.memRead c := by
  unfold setReg; split <;> rfl
@[simp] theorem setReg_stackFull (i : Byte) (v : Word) : (s.setReg i v).stackFull = s.stackFull := by
  unfold setReg; split <;> rfl
@[simp] theorem memWrite_regCount (a : Addr) (v : Word) : (s.memWrite a v).regCount = s.regCount := by
  unfold memWrite; split <;> rfl
@[simp] theorem memWrite_configOk (a : Addr) (v : Word) : (s.memWrite a v).configOk = s.configOk := by
  unfold memWrite; split <;> rfl
@[simp] theorem memWrite_getReg (a : Addr) (v : Word) (j : Byte) : (s.memWrite a v).getReg j = s.getReg j := by
  unfold memWrite; split <;> rfl
@[simp] theorem memWrite_stackFull (a : Addr) (v : Word) : (s.memWrite a v).stackFull = s.stackFull := by
  unfold memWrite; split <;> rfl

/-! ### The state at dispatch -/

@[simp] theorem afterFetch_params : s.afterFetch.params = s.params := rfl
@[simp] theorem afterFetch_regs : s.afterFetch.regs = s.regs := rfl
@[simp] theorem afterFetch_mem : s.afterFetch.mem = s.mem := rfl
@[simp] theorem afterFetch_pc : s.afterFetch.pc = s.pc + 1#32 := rfl
@[simp] theorem afterFetch_calls : s.afterFetch.calls = s.calls := rfl
@[simp] theorem afterFetch_status : s.afterFetch.status = s.status := rfl
@[simp] theorem afterFetch_trace :
    s.afterFetch.trace = s.trace ++ [{ word := s.fetchWord, opcode := opcodeField s.fetchWord }] := rfl
@[simp] theorem afterFetch_regCount : s.afterFetch.regCount = s.regCount := rfl
@[simp] theorem afterFetch_configOk : s.afterFetch.configOk = s.configOk := rfl
@[simp] theorem afterFetch_stackFull : s.afterFetch.stackFull = s.stackFull := rfl
@[simp] theorem afterFetch_getReg (j : Byte) : s.afterFetch.getReg j = s.getReg j := rfl
@[simp] theorem afterFetch_memRead (c : Addr) : s.afterFetch.memRead c = s.memRead c := rfl

end Sys2Proof.Machine.State
end

