-- ==== Sys2Proof/Laws/Memory.lean ====
section
/-! SUPPORT. The memory: reading after writing, the canonical form under every operation, and canonical memories
with equal cells are equal. -/

namespace Sys2Proof.Machine.Memory

@[simp] theorem read_nil (a : Nat) : read [] a = unlistedCell := rfl

theorem wf_nil : wf [] := ⟨List.Pairwise.nil, by simp⟩

theorem wf_tail {c : Nat × Word} {m : Memory} (h : wf (c :: m)) : wf m :=
  ⟨(List.pairwise_cons.mp h.1).2, fun d hd => h.2 d (List.mem_cons_of_mem _ hd)⟩

theorem wf_cons {c : Nat × Word} {m : Memory} :
    wf (c :: m) ↔ (∀ d ∈ m, c.1 < d.1) ∧ c.2 ≠ unlistedCell ∧ wf m := by
  unfold wf
  rw [List.pairwise_cons, List.forall_mem_cons]
  tauto

/-- A cell below every listed address is unlisted. -/
theorem read_of_lt {m : Memory} {a : Nat} (h : ∀ d ∈ m, a < d.1) : read m a = unlistedCell := by
  induction m with
  | nil => rfl
  | cons c m ih =>
    have hc := h c (by simp)
    obtain ⟨b, w⟩ := c
    simp only [read, if_neg (Nat.ne_of_lt hc)]
    exact ih fun d hd => h d (List.mem_cons_of_mem _ hd)

/-- A write lists no new cell but its own. -/
theorem mem_write {m : Memory} {a : Nat} {v : Word} {c : Nat × Word} (h : c ∈ write m a v) :
    c ∈ m ∨ c = (a, v) ∧ v ≠ unlistedCell := by
  induction m with
  | nil =>
    simp only [write] at h
    split at h <;> simp_all
  | cons d m ih =>
    obtain ⟨b, w⟩ := d
    simp only [write] at h
    split at h
    · split at h <;> simp_all
      tauto
    · split at h
      · split at h <;> simp_all
        tauto
      · rcases List.mem_cons.mp h with h | h
        · exact .inl (by simp [h])
        · exact (ih h).imp_left (List.mem_cons_of_mem _)

/-- A write keeps the canonical form. -/
theorem write_wf {m : Memory} (h : wf m) (a : Nat) (v : Word) : wf (write m a v) := by
  induction m with
  | nil =>
    simp only [write]
    split
    · exact wf_nil
    · exact wf_cons.mpr ⟨by simp, ‹_›, wf_nil⟩
  | cons d m ih =>
    obtain ⟨b, w⟩ := d
    obtain ⟨hlt, hne, hm⟩ := wf_cons.mp h
    simp only [write]
    split
    · split
      · exact h
      · refine wf_cons.mpr ⟨?_, ‹_›, h⟩
        rintro e he
        rcases List.mem_cons.mp he with rfl | he
        · assumption
        · exact Nat.lt_trans ‹a < b› (hlt e he)
    · split
      · split
        · exact hm
        · exact wf_cons.mpr ⟨by subst_vars; exact hlt, ‹_›, hm⟩
      · refine wf_cons.mpr ⟨fun e he => ?_, hne, ih hm⟩
        rcases mem_write he with he | ⟨rfl, -⟩
        · exact hlt e he
        · exact Nat.lt_of_le_of_ne (Nat.le_of_not_lt ‹¬ a < b›) (Ne.symm ‹¬ a = b›)

/-- A read after a write: the written value at its own address, every other cell as before. -/
theorem read_write {m : Memory} (h : wf m) (a : Nat) (v : Word) (b : Nat) :
    read (write m a v) b = if b = a then v else read m b := by
  induction m with
  | nil =>
    simp only [write]
    split
    · simp_all
    · simp [read]
  | cons d m ih =>
    obtain ⟨e, w⟩ := d
    obtain ⟨hlt, hne, hm⟩ := wf_cons.mp h
    simp only [write]
    split
    · have hun : read ((e, w) :: m) a = unlistedCell :=
        read_of_lt fun d hd => by
          rcases List.mem_cons.mp hd with rfl | hd
          · assumption
          · exact Nat.lt_trans ‹a < e› (hlt d hd)
      split
      · split
        · subst_vars; exact hun
        · rfl
      · simp [read]
    · split
      · obtain rfl : a = e := ‹a = e›
        have hun : read m a = unlistedCell := read_of_lt hlt
        split
        · simp only [read]
          split
          · subst_vars; exact hun
          · rfl
        · simp only [read]
          split <;> rfl
      · simp only [read, ih hm]
        split
        · subst_vars; simp [Ne.symm ‹¬ a = _›]
        · rfl

theorem read_write_same {m : Memory} (h : wf m) (a : Nat) (v : Word) : read (write m a v) a = v := by
  simp [read_write h]

theorem read_write_of_ne {m : Memory} (h : wf m) {a b : Nat} (v : Word) (hab : b ≠ a) :
    read (write m a v) b = read m b := by
  simp [read_write h, hab]

/-- The head of a canonical memory, seen through its cells. -/
theorem read_head {c : Nat × Word} {m : Memory} : read (c :: m) c.1 = c.2 := by
  simp [read]

theorem read_tail {c : Nat × Word} {m : Memory} {a : Nat} (h : a ≠ c.1) : read (c :: m) a = read m a := by
  simp [read, h]

/-- Two canonical memories whose cells are equal are equal. -/
theorem ext_of_read {m n : Memory} (hm : wf m) (hn : wf n) (h : ∀ a, read m a = read n a) : m = n := by
  induction m generalizing n with
  | nil =>
    cases n with
    | nil => rfl
    | cons d n => exact absurd ((h d.1).symm.trans rfl) (by rw [read_head]; exact (wf_cons.mp hn).2.1)
  | cons c m ih =>
    cases n with
    | nil => exact absurd (h c.1) (by rw [read_head]; exact (wf_cons.mp hm).2.1)
    | cons d n =>
      obtain ⟨hc, hcv, hm'⟩ := wf_cons.mp hm
      obtain ⟨hd, hdv, hn'⟩ := wf_cons.mp hn
      have key : c.1 = d.1 := by
        rcases Nat.lt_trichotomy c.1 d.1 with hlt | heq | hlt
        · refine absurd (h c.1) ?_
          rw [read_head, read_of_lt (m := d :: n) (by
            rintro e he
            rcases List.mem_cons.mp he with rfl | he
            · exact hlt
            · exact Nat.lt_trans hlt (hd e he))]
          exact hcv
        · exact heq
        · refine absurd (h d.1).symm ?_
          rw [read_head, read_of_lt (m := c :: m) (by
            rintro e he
            rcases List.mem_cons.mp he with rfl | he
            · exact hlt
            · exact Nat.lt_trans hlt (hc e he))]
          exact hdv
      have hv : c.2 = d.2 := by
        have := h c.1
        rwa [read_head, key, read_head] at this
      have hrest : m = n := by
        refine ih hm' hn' fun a => ?_
        by_cases ha : a = c.1
        · subst ha
          rw [read_of_lt hc, key, read_of_lt hd]
        · have := h a
          rwa [read_tail ha, read_tail (key ▸ ha)] at this
      rw [hrest, Prod.ext key hv]

/-- What every write keeps, a list of writes keeps. -/
theorem ofWrites_step {size : Nat} {P : Memory → Prop} (image : List (Nat × Word)) (m : Memory) (hm : P m)
    (hw : ∀ (m : Memory) (c : Nat × Word), P m → c.1 < size → P (write m c.1 c.2)) :
    P (image.foldl (fun m c => if c.1 < size then write m c.1 c.2 else m) m) := by
  induction image generalizing m with
  | nil => exact hm
  | cons c image ih =>
    refine ih _ ?_
    dsimp only
    split
    · exact hw m c hm ‹_›
    · exact hm

theorem ofWrites_wf (size : Nat) (image : List (Nat × Word)) : wf (ofWrites size image) :=
  ofWrites_step image [] wf_nil fun _ c h _ => write_wf h c.1 c.2

theorem ofWrites_range (size : Nat) (image : List (Nat × Word)) :
    ∀ c ∈ ofWrites size image, c.1 < size :=
  ofWrites_step (P := fun m => ∀ c ∈ m, c.1 < size) image [] (by simp) fun m c h hc d hd => by
    rcases mem_write hd with hd | ⟨rfl, -⟩
    · exact h d hd
    · exact hc

/-- One write more: the memory before it, with the cell written if it is inside. -/
theorem ofWrites_concat (size : Nat) (image : List (Nat × Word)) (c : Nat × Word) :
    ofWrites size (image ++ [c]) =
      if c.1 < size then write (ofWrites size image) c.1 c.2 else ofWrites size image := by
  simp [ofWrites, List.foldl_append]

/-- A cell after one write more. -/
theorem read_ofWrites_concat (size : Nat) (image : List (Nat × Word)) (c : Nat × Word) (a : Nat) :
    read (ofWrites size (image ++ [c])) a =
      if a = c.1 ∧ c.1 < size then c.2 else read (ofWrites size image) a := by
  rw [ofWrites_concat]
  by_cases h : c.1 < size <;> simp [h, read_write (ofWrites_wf size image)]

end Sys2Proof.Machine.Memory
end

