-- ==== Sys2Proof/Laws/Ops.lean ====
section
/-! SUPPORT. The shared operations, each said once: reading a register after writing one, reading a cell after
writing one, the canonical form under every state update. -/

namespace Sys2Proof.Machine.State

variable (s : State)

/-- A register read is the cell of the file when there is one, else 0. -/
theorem getReg_eq (i : Byte) : s.getReg i = s.regs.getD i.toNat 0#32 := by
  unfold getReg
  split
  · rfl
  · rw [List.getD_eq_default]
    simpa [regCount] using ‹¬ i.toNat < s.regCount›

theorem getReg_of_ge {i : Byte} (h : s.regCount ≤ i.toNat) : s.getReg i = 0#32 := by
  unfold getReg; rw [if_neg (Nat.not_lt.mpr h)]

/-- A register read after a register write: the written value in the written register when the file has it, every
other register as before. -/
theorem setReg_getReg (i j : Byte) (v : Word) :
    (s.setReg i v).getReg j = if j = i ∧ i.toNat < s.regCount then v else s.getReg j := by
  unfold getReg
  rw [setReg_regCount, setReg_regs]
  by_cases hj : j.toNat < s.regCount
  · rw [if_pos hj, if_pos hj]
    have hj' : j.toNat < s.regs.length := hj
    simp only [List.getD_eq_getElem?_getD, List.getElem?_set]
    by_cases hij : j = i
    · subst hij; simp [hj, hj']
    · have : i.toNat ≠ j.toNat := fun e => hij (BitVec.eq_of_toNat_eq e.symm)
      simp [hij, this]
  · rw [if_neg hj, if_neg hj, if_neg]
    rintro ⟨rfl, h⟩
    exact hj h

theorem setReg_of_ge {i : Byte} (h : s.regCount ≤ i.toNat) (v : Word) : s.setReg i v = s := by
  unfold setReg; rw [if_neg (Nat.not_lt.mpr h)]

theorem memRead_of_ge {a : Addr} (h : s.params.memSize ≤ a.toNat) : s.memRead a = 0#32 := by
  unfold memRead; rw [if_neg (Nat.not_lt.mpr h)]

theorem memWrite_of_ge {a : Addr} (h : s.params.memSize ≤ a.toNat) (v : Word) : s.memWrite a v = s := by
  unfold memWrite; rw [if_neg (Nat.not_lt.mpr h)]

/-- A cell after a memory write, by its word address. -/
theorem memWrite_read (h : Memory.wf s.mem) (a : Addr) (v : Word) (n : Nat) :
    Memory.read (s.memWrite a v).mem n =
      if n = a.toNat ∧ a.toNat < s.params.memSize then v else Memory.read s.mem n := by
  rw [memWrite_mem]
  split
  · rw [Memory.read_write h]
    split <;> simp_all
  · simp_all

/-- A register write changes the register file and nothing else; out of range, `List.set` changes nothing
either. -/
theorem setReg_eq (i : Byte) (v : Word) : s.setReg i v = { s with regs := s.regs.set i.toNat v } := by
  rw [← setReg_regs]
  unfold setReg; split <;> rfl

/-- A memory write changes the memory and nothing else. -/
theorem memWrite_eq (a : Addr) (v : Word) :
    s.memWrite a v =
      { s with mem := if a.toNat < s.params.memSize then Memory.write s.mem a.toNat v else s.mem } := by
  unfold memWrite; split <;> rfl

/-- A memory read after a memory write. -/
theorem memWrite_memRead (h : Memory.wf s.mem) (a b : Addr) (v : Word) :
    (s.memWrite a v).memRead b = if b = a ∧ a.toNat < s.params.memSize then v else s.memRead b := by
  unfold memRead
  rw [memWrite_params, memWrite_read s h]
  by_cases hb : b.toNat < s.params.memSize
  · rw [if_pos hb, if_pos hb]
    by_cases hab : b = a
    · subst hab; simp [hb]
    · have : b.toNat ≠ a.toNat := fun e => hab (BitVec.eq_of_toNat_eq e)
      simp [hab, this]
  · rw [if_neg hb, if_neg hb, if_neg]
    rintro ⟨rfl, h'⟩
    exact hb h'

theorem memWrite_wf (h : Memory.wf s.mem) (a : Addr) (v : Word) : Memory.wf (s.memWrite a v).mem := by
  rw [memWrite_mem]
  split
  · exact Memory.write_wf h _ _
  · exact h

theorem memWrite_range (h : ∀ c ∈ s.mem, c.1 < s.params.memSize) (a : Addr) (v : Word) :
    ∀ c ∈ (s.memWrite a v).mem, c.1 < s.params.memSize := by
  rw [memWrite_mem]
  split
  · rintro c hc
    rcases Memory.mem_write hc with hc | ⟨rfl, -⟩
    · exact h c hc
    · assumption
  · exact h

/-- Setting the status twice. -/
theorem raiseFault_def (b : Byte) : s.raiseFault b = s.setStatus (.faulted b) := rfl

theorem placeWord_wf (h : Memory.wf s.mem) (w : Word) : Memory.wf (s.placeWord w).mem :=
  memWrite_wf _ (by simpa using h) _ _

end Sys2Proof.Machine.State

namespace Sys2Proof.Machine

theorem reset_mem_wf : Memory.wf State.reset.mem := Memory.wf_nil

end Sys2Proof.Machine
end

