-- ==== Sys2Proof/Laws/PerInstr.lean ====
section
/-! SUPPORT. The per-instruction family EncodedOpcode: the word an instruction is encoded to carries the
instruction's own opcode byte, whatever the opcode map. One lemma per constructor. -/

/-- The opcode field of an encoded instruction is its opcode byte (30_encoding.md R55). -/
def Sys2Proof.Laws.EncodedOpcode.Statement (i : Sys2Proof.Instr) : Prop :=
  ∀ opc : Sys2Proof.OpcodeMap, Sys2Proof.opcodeField (Sys2Proof.encode opc i) = i.opcodeByte opc

theorem Sys2Proof.Laws.EncodedOpcode.add (r1 r2 r3 : Sys2Proof.Byte) :
    Sys2Proof.Laws.EncodedOpcode.Statement (.add r1 r2 r3) :=
  fun _ => Sys2Proof.opcodeField_packWord _ _ _ _

theorem Sys2Proof.Laws.EncodedOpcode.sub :
    Sys2Proof.Laws.EncodedOpcode.Statement .sub :=
  fun _ => Sys2Proof.opcodeField_packWord _ _ _ _

theorem Sys2Proof.Laws.EncodedOpcode.mul :
    Sys2Proof.Laws.EncodedOpcode.Statement .mul :=
  fun _ => Sys2Proof.opcodeField_packWord _ _ _ _

theorem Sys2Proof.Laws.EncodedOpcode.div :
    Sys2Proof.Laws.EncodedOpcode.Statement .div :=
  fun _ => Sys2Proof.opcodeField_packWord _ _ _ _

theorem Sys2Proof.Laws.EncodedOpcode.inc (r1 : Sys2Proof.Byte) :
    Sys2Proof.Laws.EncodedOpcode.Statement (.inc r1) :=
  fun _ => Sys2Proof.opcodeField_packWord _ _ _ _

theorem Sys2Proof.Laws.EncodedOpcode.dec :
    Sys2Proof.Laws.EncodedOpcode.Statement .dec :=
  fun _ => Sys2Proof.opcodeField_packWord _ _ _ _

theorem Sys2Proof.Laws.EncodedOpcode.and :
    Sys2Proof.Laws.EncodedOpcode.Statement .and :=
  fun _ => Sys2Proof.opcodeField_packWord _ _ _ _

theorem Sys2Proof.Laws.EncodedOpcode.or :
    Sys2Proof.Laws.EncodedOpcode.Statement .or :=
  fun _ => Sys2Proof.opcodeField_packWord _ _ _ _

theorem Sys2Proof.Laws.EncodedOpcode.xor :
    Sys2Proof.Laws.EncodedOpcode.Statement .xor :=
  fun _ => Sys2Proof.opcodeField_packWord _ _ _ _

theorem Sys2Proof.Laws.EncodedOpcode.not :
    Sys2Proof.Laws.EncodedOpcode.Statement .not :=
  fun _ => Sys2Proof.opcodeField_packWord _ _ _ _

theorem Sys2Proof.Laws.EncodedOpcode.jmp :
    Sys2Proof.Laws.EncodedOpcode.Statement .jmp :=
  fun _ => Sys2Proof.opcodeField_packWord _ _ _ _

theorem Sys2Proof.Laws.EncodedOpcode.beq :
    Sys2Proof.Laws.EncodedOpcode.Statement .beq :=
  fun _ => Sys2Proof.opcodeField_packWord _ _ _ _

theorem Sys2Proof.Laws.EncodedOpcode.bne :
    Sys2Proof.Laws.EncodedOpcode.Statement .bne :=
  fun _ => Sys2Proof.opcodeField_packWord _ _ _ _

theorem Sys2Proof.Laws.EncodedOpcode.call (r1 : Sys2Proof.Byte) :
    Sys2Proof.Laws.EncodedOpcode.Statement (.call r1) :=
  fun _ => Sys2Proof.opcodeField_packWord _ _ _ _

theorem Sys2Proof.Laws.EncodedOpcode.ret :
    Sys2Proof.Laws.EncodedOpcode.Statement .ret :=
  fun _ => Sys2Proof.opcodeField_packWord _ _ _ _

theorem Sys2Proof.Laws.EncodedOpcode.ld (r1 r2 : Sys2Proof.Byte) :
    Sys2Proof.Laws.EncodedOpcode.Statement (.ld r1 r2) :=
  fun _ => Sys2Proof.opcodeField_packWord _ _ _ _

theorem Sys2Proof.Laws.EncodedOpcode.st (r1 r2 : Sys2Proof.Byte) :
    Sys2Proof.Laws.EncodedOpcode.Statement (.st r1 r2) :=
  fun _ => Sys2Proof.opcodeField_packWord _ _ _ _

theorem Sys2Proof.Laws.EncodedOpcode.fft :
    Sys2Proof.Laws.EncodedOpcode.Statement .fft :=
  fun _ => Sys2Proof.opcodeField_packWord _ _ _ _

theorem Sys2Proof.Laws.EncodedOpcode.enc :
    Sys2Proof.Laws.EncodedOpcode.Statement .enc :=
  fun _ => Sys2Proof.opcodeField_packWord _ _ _ _

theorem Sys2Proof.Laws.EncodedOpcode.decrypt :
    Sys2Proof.Laws.EncodedOpcode.Statement .decrypt :=
  fun _ => Sys2Proof.opcodeField_packWord _ _ _ _

theorem Sys2Proof.Laws.EncodedOpcode.unassigned (b : Sys2Proof.Byte) :
    Sys2Proof.Laws.EncodedOpcode.Statement (.unassigned b) :=
  fun _ => Sys2Proof.opcodeField_packWord _ _ _ _
end

