-- ==== Sys2Proof/Laws/Step.lean ====
section
/-! SUPPORT. What an instruction, a step and a run can do, each said once: later proofs take their cases from
here and unfold nothing. -/

namespace Sys2Proof.Machine

/-- All that an instruction can do when it answers a next state. -/
theorem exec_cases {i : Instr} {s t : State} (h : exec i s = .next t) :
    (∃ r1 r2 r3, i = .add r1 r2 r3 ∧ t = s.setReg r1 (aluAdd (s.getReg r2) (s.getReg r3))) ∨
    (∃ r1, i = .inc r1 ∧ t = s.setReg r1 (aluInc (s.getReg r1))) ∨
    (∃ r1 r2, i = .ld r1 r2 ∧ t = s.setReg r1 (s.memRead (memOperand r2))) ∨
    (∃ r1 r2, i = .st r1 r2 ∧ t = s.memWrite (memOperand r1) (s.getReg r2)) ∨
    (∃ r1, i = .call r1 ∧ s.stackFull = false ∧ t = (s.pushCall s.pc).setPc (targetOperand r1)) ∨
    (∃ r1, i = .call r1 ∧ s.stackFull = true ∧ t = s.raiseFault s.params.opc.call) ∨
    (i = .ret ∧ s.calls = [] ∧ t = s) ∨
    (∃ v, i = .ret ∧ s.calls = t.calls ++ [v] ∧ t = { s with calls := t.calls, pc := v }) ∨
    (i.dispatched = false ∧ t = s.raiseFault (i.opcodeByte s.params.opc)) := by
  cases i
  case add r1 r2 r3 => cases h; exact .inl ⟨_, _, _, rfl, rfl⟩
  case inc r1 => cases h; exact .inr (.inl ⟨_, rfl, rfl⟩)
  case ld r1 r2 => cases h; exact .inr (.inr (.inl ⟨_, _, rfl, rfl⟩))
  case st r1 r2 => cases h; exact .inr (.inr (.inr (.inl ⟨_, _, rfl, rfl⟩)))
  case call r1 =>
    simp only [exec, execCall] at h
    split at h
    · cases h; exact .inr (.inr (.inr (.inr (.inr (.inl ⟨_, rfl, ‹_›, rfl⟩)))))
    · cases h; exact .inr (.inr (.inr (.inr (.inl ⟨_, rfl, by simpa using ‹¬ s.stackFull = true›, rfl⟩))))
  case ret =>
    simp only [exec, execRet] at h
    split at h
    · cases h
      exact .inr (.inr (.inr (.inr (.inr (.inr (.inl ⟨rfl, (State.popCall_eq_none s).mp ‹_›, rfl⟩))))))
    · rename_i v u e
      cases h
      obtain ⟨h1, h2⟩ := (State.popCall_eq_some s).mp e
      refine .inr (.inr (.inr (.inr (.inr (.inr (.inr (.inl ⟨v, rfl, h1, ?_⟩)))))))
      rw [h2]; rfl
  all_goals
    cases h
    exact .inr (.inr (.inr (.inr (.inr (.inr (.inr (.inr ⟨rfl, rfl⟩)))))))

/-- No instruction changes the parameters, the number of registers or the trace. -/
theorem exec_keeps {i : Instr} {s t : State} (h : exec i s = .next t) :
    t.params = s.params ∧ t.regCount = s.regCount ∧ t.trace = s.trace := by
  rcases exec_cases h with ⟨_, _, _, -, rfl⟩ | ⟨_, -, rfl⟩ | ⟨_, _, -, rfl⟩ | ⟨_, _, -, rfl⟩ | ⟨_, -, -, rfl⟩ |
    ⟨_, -, -, rfl⟩ | ⟨-, -, rfl⟩ | ⟨_, -, -, e⟩ | ⟨-, rfl⟩
  case inr.inr.inr.inr.inr.inr.inr.inl => rw [e]; exact ⟨rfl, rfl, rfl⟩
  all_goals simp

/-- All that a step can do when it answers a next state: nothing once the run has ended, the normal end of a
running CORE with `pc >= MEM_SIZE`, else the decoded instruction on the state at dispatch. -/
theorem step_cases {s t : State} (h : step s = .next t) :
    s.configOk = true ∧
    ((s.status ≠ .running ∧ t = s) ∨
     (s.status = .running ∧ s.params.memSize ≤ s.pc.toNat ∧ t = s.setStatus .halted) ∨
     (s.status = .running ∧ s.pc.toNat < s.params.memSize ∧
      exec (decode s.params.opc s.fetchWord) s.afterFetch = .next t)) := by
  unfold step runLoopPass at h
  split at h
  · refine ⟨‹_›, ?_⟩
    split at h
    · cases h; exact .inl ⟨by simp_all, rfl⟩
    · cases h; exact .inl ⟨by simp_all, rfl⟩
    · split at h
      · cases h; exact .inr (.inl ⟨‹_›, ‹_›, rfl⟩)
      · exact .inr (.inr ⟨‹_›, Nat.lt_of_not_le ‹_›, h⟩)
  · cases h

/-- A step of a running CORE inside the memory is the instruction cycle. -/
theorem step_of_running {s : State} (hc : s.configOk = true) (hs : s.status = .running)
    (hp : s.pc.toNat < s.params.memSize) :
    step s = exec (decode s.params.opc s.fetchWord) s.afterFetch := by
  unfold step runLoopPass instructionCycle
  rw [if_pos hc, hs]
  exact if_neg (Nat.not_le.mpr hp)

/-- A step over an ended run answers the same state. -/
theorem step_of_ended {s : State} (hc : s.configOk = true) (hs : s.status ≠ .running) : step s = .next s := by
  unfold step runLoopPass
  rw [if_pos hc]
  cases h : s.status <;> simp_all

/-- The parameters and the number of registers are constants of the instance. -/
theorem step_keeps_params {s t : State} (h : step s = .next t) :
    t.params = s.params ∧ t.regCount = s.regCount := by
  rcases (step_cases h).2 with ⟨-, rfl⟩ | ⟨-, -, rfl⟩ | ⟨-, -, he⟩
  · exact ⟨rfl, rfl⟩
  · exact ⟨rfl, rfl⟩
  · exact ⟨(exec_keeps he).1, (exec_keeps he).2.1⟩

theorem configOk_of_eq {s t : State} (h : t.params = s.params ∧ t.regCount = s.regCount) :
    t.configOk = s.configOk := by
  simp only [State.configOk, h.1, h.2]

/-! ### Runs -/

/-- One step of the interface's run. -/
theorem coreRun_succ (M : Host.Core) (n : Nat) (s t : M.State) :
    M.run (n + 1) s = .next t ↔ ∃ u, M.step s = .next u ∧ M.run n u = .next t := by
  rw [Host.Core.run]
  cases M.step s <;> simp

/-- A run is what the host's interface runs. -/
theorem runsTo_iff_core_run {n : Nat} {s t : State} : RunsTo n s t ↔ Sys2Proof.core.run n s = .next t := by
  induction n generalizing s with
  | zero =>
    constructor
    · rintro rfl; rfl
    · intro h; cases h; rfl
  | succ n ih =>
    refine Iff.trans ?_ (coreRun_succ Sys2Proof.core n s t).symm
    constructor
    · rintro ⟨u, hu, hr⟩; exact ⟨u, hu, ih.mp hr⟩
    · rintro ⟨u, hu, hr⟩; exact ⟨u, hu, ih.mpr hr⟩

/-- What every step keeps, every run keeps. -/
theorem runsTo_induction {P : State → Prop} (hstep : ∀ s t, P s → step s = .next t → P t) {n : Nat} {s t : State}
    (hs : P s) (h : RunsTo n s t) : P t := by
  induction n generalizing s with
  | zero => cases h; exact hs
  | succ n ih =>
    obtain ⟨u, hu, hr⟩ := h
    exact ih (hstep s u hs hu) hr

/-- A run of `m + n` steps is a run of `m` steps and then one of `n`. -/
theorem runsTo_add {m n : Nat} {s t : State} : RunsTo (m + n) s t ↔ ∃ u, RunsTo m s u ∧ RunsTo n u t := by
  induction m generalizing s with
  | zero => simp [RunsTo]
  | succ m ih =>
    rw [Nat.add_right_comm]
    constructor
    · rintro ⟨u, h1, h2⟩
      obtain ⟨v, h3, h4⟩ := ih.mp h2
      exact ⟨v, ⟨u, h1, h3⟩, h4⟩
    · rintro ⟨v, ⟨u, h1, h2⟩, h3⟩
      exact ⟨u, h1, ih.mpr ⟨v, h2, h3⟩⟩

/-- A run of a given length from a given state has one end. -/
theorem runsTo_unique {n : Nat} {s t u : State} (ht : RunsTo n s t) (hu : RunsTo n s u) : t = u := by
  induction n generalizing s with
  | zero => rw [ht, hu]
  | succ n ih =>
    obtain ⟨a, ha, ha'⟩ := ht
    obtain ⟨b, hb, hb'⟩ := hu
    rw [ha] at hb
    cases hb
    exact ih ha' hb'

end Sys2Proof.Machine
end

