-- ==== Sys2Proof/Tests/Slice0.lean ====
section
/-! SUPPORT. Tests of the model. Expected values are those of the spec: the encodings of 30_encoding.md R55, the
vectors of 95_test_vectors.md, the rules named. Then, for each statement with hypotheses, a witness that meets
them, its clauses at the ends of their ranges. -/

namespace Sys2Proof.Machine.Tests

/-! ### Helpers -/

/-- A small running instance: memory size, registers, listed cells, pc, call stack. -/
def cpu (memSize : Nat) (regs : List Word) (mem : Memory) (pc : Pc) (calls : List Pc) : State :=
  { params := { defaultParams with memSize := memSize }, regs := regs, mem := mem, pc := pc, calls := calls,
    status := .running, trace := [] }

/-- Sixteen registers: the given ones, the rest 0. -/
def regs16 (r : List Word) : List Word := r.takeD 16 0#32

/-- The state after one step, if the step answers one. -/
def after (s : State) : Option State :=
  match step s with
  | .next t => some t
  | .fault _ => none
  | .refused _ => none

/-- The default map with CALL's code given to RET as well. -/
def twice : OpcodeMap := { defaultOpcodeMap with ret := 0x0E#8 }

/-! ### WellFormed: each check refuses an ill-formed term, and accepts the ends of its range -/

theorem test_admissible_default : defaultParams.admissible 16 = true := by decide
theorem test_opcodes_refuse_a_code_used_twice : twice.admissible = false := by decide
theorem test_opcodes_refuse_code_00 : OpcodeMap.admissible { defaultOpcodeMap with add := 0x00#8 } = false := by
  decide
theorem test_opcodes_refuse_code_ff : OpcodeMap.admissible { defaultOpcodeMap with st := 0xFF#8 } = false := by
  decide
theorem test_params_refuse_no_register : defaultParams.admissible 0 = false := by decide
theorem test_params_refuse_257_registers : defaultParams.admissible 257 = false := by decide
theorem test_params_refuse_no_memory : Params.admissible { defaultParams with memSize := 0 } 16 = false := by decide
theorem test_params_refuse_memory_65537 : Params.admissible { defaultParams with memSize := 65537 } 16 = false := by
  decide
theorem test_params_refuse_fault_status_0 :
    Params.admissible { defaultParams with faultStatus := 0 } 16 = false := by decide
theorem test_params_accept_the_ends :
    Params.admissible { defaultParams with memSize := 1 } 1 = true ∧
    Params.admissible { defaultParams with memSize := 65536 } 256 = true := by decide
theorem test_instr_refuses_an_assigned_byte : Instr.wf defaultOpcodeMap (.unassigned 0x14#8) = false := by decide
theorem test_instr_accepts_unassigned_bytes :
    Instr.wf defaultOpcodeMap (.unassigned 0x00#8) = true ∧ Instr.wf defaultOpcodeMap (.unassigned 0x15#8) = true ∧
    Instr.wf defaultOpcodeMap (.unassigned 0xFF#8) = true := by decide
theorem test_memory_wf_refuses_disorder_and_default_entries :
    ¬ Memory.wf [(5, 1#32), (3, 2#32)] ∧ ¬ Memory.wf [(5, 1#32), (5, 2#32)] ∧ ¬ Memory.wf [(5, 0#32)] := by decide

/-! ### Decode: one word per constructor, written out from R48, R52 and R55 -/

theorem test_decode_add : decode defaultOpcodeMap 0b00000001_00000010_00000001_00000011#32 = .add 2 1 3 := by decide
theorem test_decode_sub : decode defaultOpcodeMap 0b00000010_00000011_00000001_00000010#32 = .sub := by decide
theorem test_decode_mul : decode defaultOpcodeMap 0b00000011_00000000_00000000_00000000#32 = .mul := by decide
theorem test_decode_div : decode defaultOpcodeMap 0b00000100_00000001_00000010_00000000#32 = .div := by decide
theorem test_decode_inc : decode defaultOpcodeMap 0b00000101_00000001_00000000_00000000#32 = .inc 1 := by decide
theorem test_decode_dec : decode defaultOpcodeMap 0b00000110_00000001_00000000_00000000#32 = .dec := by decide
theorem test_decode_and : decode defaultOpcodeMap 0b00000111_00000001_00000010_00000011#32 = .and := by decide
theorem test_decode_or : decode defaultOpcodeMap 0b00001000_00000000_00000000_00000000#32 = .or := by decide
theorem test_decode_xor : decode defaultOpcodeMap 0b00001001_00000001_00000001_00000001#32 = .xor := by decide
theorem test_decode_not : decode defaultOpcodeMap 0b00001010_00000001_00000000_00000000#32 = .not := by decide
theorem test_decode_jmp : decode defaultOpcodeMap 0b00001011_00001010_00000000_00000000#32 = .jmp := by decide
theorem test_decode_beq : decode defaultOpcodeMap 0b00001100_00000001_00000010_00000101#32 = .beq := by decide
theorem test_decode_bne : decode defaultOpcodeMap 0b00001101_00000000_00000000_00000000#32 = .bne := by decide
theorem test_decode_call : decode defaultOpcodeMap 0b00001110_00001010_00000000_00000000#32 = .call 10 := by decide
theorem test_decode_ret : decode defaultOpcodeMap 0b00001111_11111111_11111111_11111111#32 = .ret := by decide
theorem test_decode_ld : decode defaultOpcodeMap 0b00010000_00000001_01100100_00000000#32 = .ld 1 100 := by decide
theorem test_decode_st : decode defaultOpcodeMap 0b00010001_01100101_00000001_00000000#32 = .st 101 1 := by decide
theorem test_decode_fft : decode defaultOpcodeMap 0b00010010_00000000_00000000_00000000#32 = .fft := by decide
theorem test_decode_enc : decode defaultOpcodeMap 0b00010011_00000001_00000010_00000000#32 = .enc := by decide
theorem test_decode_decrypt : decode defaultOpcodeMap 0b00010100_00000000_00000000_00000000#32 = .decrypt := by decide
theorem test_decode_unassigned :
    decode defaultOpcodeMap 0x00000029#32 = .unassigned 0x00#8 ∧
    decode defaultOpcodeMap 0x15000000#32 = .unassigned 0x15#8 ∧
    decode defaultOpcodeMap 0xFF123456#32 = .unassigned 0xFF#8 := by decide

/-- The canonical words of R55, and the words of scenario E1. -/
theorem test_encode_canonical_words :
    encode defaultOpcodeMap (.ld 1 100) = 0x10016400#32 ∧ encode defaultOpcodeMap (.inc 1) = 0x05010000#32 ∧
    encode defaultOpcodeMap (.st 101 1) = 0x11650100#32 ∧ encode defaultOpcodeMap (.add 2 1 1) = 0x01020101#32 ∧
    encode defaultOpcodeMap (.call 10) = 0x0E0A0000#32 ∧ encode defaultOpcodeMap .ret = 0x0F000000#32 := by decide

theorem test_decode_table_word :
    decodeTableWord 32 0x11000000 = some (.st 0 0) ∧ decodeTableWord 32 0 = some (.unassigned 0) ∧
    decodeTableWord 40 0 = none := by decide

/-! ### The arithmetic-logic unit: vectors V1 -/

theorem test_alu_add : aluAdd 0xFFFFFFFF#32 0xFFFFFFFF#32 = 0xFFFFFFFE#32 ∧ aluAdd 0x7FFFFFFF#32 1#32 = 0x80000000#32 := by
  decide
theorem test_alu_sub : aluSub 5#32 7#32 = 0xFFFFFFFE#32 ∧ aluSub 0#32 0x80000000#32 = 0x80000000#32 := by decide
theorem test_alu_mul : aluMul 0x12345678#32 0x10#32 = 0x23456780#32 ∧ aluMul 0xFFFFFFFF#32 0xFFFFFFFF#32 = 1#32 := by
  decide
theorem test_alu_div :
    aluDiv 0xFFFFFFFF#32 2#32 = 0x7FFFFFFF#32 ∧ aluDiv 7#32 0#32 = 0#32 ∧
    aluDiv 0x80000000#32 0xFFFFFFFF#32 = 0#32 := by decide
theorem test_alu_inc : aluInc 0xFFFFFFFF#32 = 0#32 ∧ aluInc 0x7FFFFFFF#32 = 0x80000000#32 := by decide
theorem test_alu_dec : aluDec 0#32 = 0xFFFFFFFF#32 ∧ aluDec 0x80000000#32 = 0x7FFFFFFF#32 := by decide

/-! ### One step of each instruction: vectors V3 to V8 -/

/-- V3: 7 + 0xFFFFFFFF = 6. -/
theorem test_step_add_wraps :
    (after (cpu 1024 (regs16 [0, 7, 0xFFFFFFFF]) [(20, 0x01030102#32)] 20 [])).map
      (fun t => (t.getReg 3, t.pc, t.status)) = some (6#32, 21#32, .running) := by decide

/-- V3: the destination is also both sources. -/
theorem test_step_add_doubles :
    (after (cpu 1024 (regs16 [0, 0x80000001]) [(20, 0x01010101#32)] 20 [])).map (fun t => t.getReg 1) =
      some 2#32 := by decide

/-- V3: an out-of-range destination drops the result. -/
theorem test_step_add_drops :
    (after (cpu 1024 (regs16 [0, 1, 2]) [(20, 0x01100102#32)] 20 [])).map (fun t => t.regs) =
      some (regs16 [0, 1, 2]) := by decide

/-- V3: register 15 wraps. -/
theorem test_step_inc_wraps :
    (after (cpu 1024 (List.replicate 16 0xFFFFFFFF#32) [(20, 0x050F0000#32)] 20 [])).map
      (fun t => (t.getReg 15, t.getReg 14)) = some (0#32, 0xFFFFFFFF#32) := by decide

/-- V3: register 0 is an ordinary register. -/
theorem test_step_inc_register_0 :
    (after (cpu 1024 (regs16 [41]) [(20, 0x05000000#32)] 20 [])).map (fun t => t.getReg 0) = some 42#32 := by decide

/-- V6: the cell is copied whole. -/
theorem test_step_ld :
    (after (cpu 1024 (regs16 []) [(0, 0x1003FF00#32), (255, 0x80000000#32)] 0 [])).map (fun t => t.getReg 3) =
      some 0x80000000#32 := by decide

/-- V6: an address past a memory of 16 cells loads 0. -/
theorem test_step_ld_out_of_range :
    (after (cpu 16 (regs16 [0, 0, 0, 77]) [(0, 0x1003C800#32)] 0 [])).map (fun t => t.getReg 3) = some 0#32 := by
  decide

/-- V6: a store into the next word. -/
theorem test_step_st :
    (after (cpu 1024 (regs16 [0, 0x0F000000]) [(20, 0x11150100#32)] 20 [])).map (fun t => t.mem) =
      some [(20, 0x11150100#32), (21, 0x0F000000#32)] := by decide

/-- V6: an out-of-range source stores 0, and the canonical form drops the entry. -/
theorem test_step_st_zero :
    (after (cpu 1024 (regs16 []) [(0, 0x110E2000#32), (14, 9#32)] 0 [])).map (fun t => t.mem) =
      some [(0, 0x110E2000#32)] := by decide

/-- V5: the pre-incremented pc is pushed. -/
theorem test_step_call :
    (after (cpu 1024 (regs16 []) [(7, 0x0EFF0000#32)] 7 [3])).map (fun t => (t.pc, t.calls)) =
      some (255#32, [3#32, 8#32]) := by decide

/-- V8: the finite stack of depth 2 is full. -/
theorem test_step_call_full :
    (after { cpu 1024 (regs16 []) [(0, 0x0E000000#32)] 0 [1, 1] with
        params := { defaultParams with stackDepth := some 2 } }).map (fun t => (t.status, t.pc, t.calls)) =
      some (.faulted 0x0E#8, 1#32, [1#32, 1#32]) := by decide

/-- V5: the top entry is popped. -/
theorem test_step_ret :
    (after (cpu 1024 (regs16 []) [(10, 0x0F000000#32)] 10 [3, 8])).map (fun t => (t.pc, t.calls)) =
      some (8#32, [3#32]) := by decide

/-- V5: on an empty stack RET is a no-op. -/
theorem test_step_ret_empty :
    (after (cpu 1024 (regs16 []) [(10, 0x0F000000#32)] 10 [])).map (fun t => (t.pc, t.calls, t.status)) =
      some (11#32, [], .running) := by decide

/-- V3, V4, V5, V7: the faulting words end the run with their own byte, pc one past, registers unchanged. -/
def faultsWith (w : Word) (b : Byte) : Bool :=
  (after (cpu 1024 (regs16 [0, 7, 2, 99]) [(3, w)] 3 [5])).map (fun t => (t.status, t.pc, t.calls, t.regs)) ==
    some (Status.faulted b, 4#32, [5#32], regs16 [0, 7, 2, 99])

theorem test_step_sub_mul_div_dec :
    faultsWith 0x02030102 0x02 ∧ faultsWith 0x03030102 0x03 ∧ faultsWith 0x04030102 0x04 ∧
    faultsWith 0x06010000 0x06 := by decide
theorem test_step_and_or_xor_not :
    faultsWith 0x07030102 0x07 ∧ faultsWith 0x08030102 0x08 ∧ faultsWith 0x09010101 0x09 ∧
    faultsWith 0x0A010000 0x0A := by decide
theorem test_step_jmp_beq_bne :
    faultsWith 0x0B0A0000 0x0B ∧ faultsWith 0x0C010205 0x0C ∧ faultsWith 0x0D010205 0x0D := by decide
theorem test_step_fft_enc_decrypt :
    faultsWith 0x12000000 0x12 ∧ faultsWith 0x13010200 0x13 ∧ faultsWith 0x14000000 0x14 := by decide
theorem test_step_unassigned :
    faultsWith 0x15000000 0x15 ∧ faultsWith 0x00000029 0x00 ∧ faultsWith 0xFF123456 0xFF ∧
    faultsWith 0x7F000000 0x7F := by decide

/-- P6: the trace record of a faulting word. -/
theorem test_step_trace :
    (after (cpu 1024 (regs16 []) [(1, 0x02010101#32)] 1 [])).map (fun t => t.trace) =
      some [⟨0x02010101#32, 0x02#8⟩] := by decide

/-- V8: a fault in the last word of a memory of 2 cells is a fault, not a normal end. -/
theorem test_step_fault_in_the_last_word :
    (after (cpu 2 (regs16 []) [(1, 0xFF000000#32)] 1 [])).map (fun t => (t.status, t.pc)) =
      some (.faulted 0xFF#8, 2#32) := by decide

/-- V5, V8: the loop test with `pc = MEM_SIZE`. -/
theorem test_step_halts :
    (after (cpu 1 (regs16 []) [] 1 [])).map (fun t => (t.status, t.pc)) = some (.halted, 1#32) := by decide

/-- The word placed at reset runs as the first instruction. -/
theorem test_with_fetch_word :
    (after (State.reset.withFetchWord 32 0x05030000)).map (fun t => (t.getReg 3, t.pc)) = some (1#32, 1#32) := by
  decide

/-! ### Witnesses: states and operands that meet the hypotheses of the statements -/

theorem witness_RegisterReadIsSoftFail :
    (15#8).toNat < State.reset.regCount ∧ State.reset.regCount ≤ (16#8).toNat := by decide

theorem witness_RegisterWriteIsSoftFail :
    (15#8).toNat < State.reset.regCount ∧ State.reset.regCount ≤ (16#8).toNat ∧ (0 : Nat) ≠ (15#8).toNat := by decide

theorem witness_MemoryReadIsSoftFail :
    (1023#16).toNat < State.reset.params.memSize ∧ State.reset.params.memSize ≤ (1024#16).toNat := by decide

theorem witness_MemoryWriteIsSoftFail :
    Memory.wf (cpu 1024 [] [(7, 1#32)] 0 []).mem ∧ (1023#16).toNat < State.reset.params.memSize ∧
    State.reset.params.memSize ≤ (1024#16).toNat := by decide

theorem witness_RewritingACellChangesNothing : Memory.wf (cpu 1024 [] [(7, 1#32)] 0 []).mem := by decide

theorem witness_AluAddSubMulWrap :
    (5#32).toNat ≤ (5#32).toNat ∧ (4#32).toNat < (5#32).toNat := by decide

theorem witness_AluDivTruncatesAndDividesByZeroToZero : 1#32 ≠ 0#32 ∧ 0#32 = 0#32 := by decide

theorem witness_AluIncDecWrapAndInvert : 1 ≤ (1#32).toNat ∧ 0#32 = 0#32 := by decide

/-- Every clause of the selection is met, by the words of the decode tests; so are the decode clauses of the
per-instruction statements. -/
theorem witness_OpcodeByteSelectsTheInstruction :
    defaultOpcodeMap.admissible = true ∧
    (opcodeField 0x01000000#32 = defaultOpcodeMap.add ∧ opcodeField 0x05000000#32 = defaultOpcodeMap.inc ∧
     opcodeField 0x11000000#32 = defaultOpcodeMap.st ∧ opcodeField 0x0E000000#32 = defaultOpcodeMap.call ∧
     opcodeField 0x0F000000#32 = defaultOpcodeMap.ret ∧ opcodeField 0x10000000#32 = defaultOpcodeMap.ld) ∧
    (opcodeField 0x02000000#32 = defaultOpcodeMap.sub ∧ opcodeField 0x03000000#32 = defaultOpcodeMap.mul ∧
     opcodeField 0x04000000#32 = defaultOpcodeMap.div ∧ opcodeField 0x06000000#32 = defaultOpcodeMap.dec) ∧
    (opcodeField 0x07000000#32 = defaultOpcodeMap.and ∧ opcodeField 0x08000000#32 = defaultOpcodeMap.or ∧
     opcodeField 0x09000000#32 = defaultOpcodeMap.xor ∧ opcodeField 0x0A000000#32 = defaultOpcodeMap.not) ∧
    (opcodeField 0x0B000000#32 = defaultOpcodeMap.jmp ∧ opcodeField 0x0C000000#32 = defaultOpcodeMap.beq ∧
     opcodeField 0x0D000000#32 = defaultOpcodeMap.bne) ∧
    (opcodeField 0x12000000#32 = defaultOpcodeMap.fft ∧ opcodeField 0x13000000#32 = defaultOpcodeMap.enc ∧
     opcodeField 0x14000000#32 = defaultOpcodeMap.decrypt) ∧
    opcodeField 0x15000000#32 ∉ defaultOpcodeMap.codes := by decide

theorem witness_ZeroAndAllOnesAreUnassigned :
    defaultOpcodeMap.admissible = true ∧ opcodeField 0x00FFFFFF#32 = 0x00#8 ∧ opcodeField 0xFF000000#32 = 0xFF#8 := by
  decide

theorem witness_UnusedFieldsDoNotChangeTheDecoding :
    0x0501BEEF#32 &&& usedBits (decode defaultOpcodeMap 0x0501BEEF#32) =
      0x05010000#32 &&& usedBits (decode defaultOpcodeMap 0x0501BEEF#32) ∧ 0x0501BEEF#32 ≠ 0x05010000#32 := by decide

theorem witness_DecodeInvertsEncode :
    defaultOpcodeMap.admissible = true ∧ Instr.wf defaultOpcodeMap (.unassigned 0xFF#8) = true ∧
    Instr.wf defaultOpcodeMap (.add 0xFF 0xFF 0xFF) = true := by decide

theorem witness_DecodedInstructionKeepsItsOpcodeByte : defaultOpcodeMap.admissible = true := by decide

theorem witness_AddWritesTheWrappedSum :
    defaultOpcodeMap.admissible = true ∧ opcodeField 0x01020101#32 = defaultOpcodeMap.add ∧
    (15#8).toNat < State.reset.regCount ∧ State.reset.regCount ≤ (16#8).toNat ∧ (0#8) ≠ 15#8 := by decide

theorem witness_IncWritesTheWrappedSuccessor :
    defaultOpcodeMap.admissible = true ∧ opcodeField 0x0501BEEF#32 = defaultOpcodeMap.inc ∧
    (15#8).toNat < State.reset.regCount ∧ State.reset.regCount ≤ (16#8).toNat := by decide

theorem witness_LoadCopiesTheWholeCell :
    defaultOpcodeMap.admissible = true ∧ opcodeField 0x10016400#32 = defaultOpcodeMap.ld ∧
    (15#8).toNat < State.reset.regCount ∧ State.reset.regCount ≤ (16#8).toNat ∧
    (15#8).toNat < (cpu 16 (regs16 []) [] 0 []).params.memSize ∧
    (cpu 16 (regs16 []) [] 0 []).params.memSize ≤ (16#8).toNat := by decide

theorem witness_StoreWritesTheWholeCell :
    defaultOpcodeMap.admissible = true ∧ opcodeField 0x11650100#32 = defaultOpcodeMap.st ∧
    Memory.wf (cpu 16 (regs16 []) [(3, 5#32)] 0 []).mem ∧
    (15#8).toNat < (cpu 16 (regs16 []) [] 0 []).params.memSize ∧
    (cpu 16 (regs16 []) [] 0 []).params.memSize ≤ (16#8).toNat := by decide

/-- An instance with a call stack of depth 2 that holds the given entries. -/
def shallow (calls : List Pc) : State :=
  { cpu 1024 (regs16 []) [(0, 0x0E000000#32)] 0 calls with params := { defaultParams with stackDepth := some 2 } }

theorem witness_CallPushesAndJumps :
    defaultOpcodeMap.admissible = true ∧ opcodeField 0x0E0A0000#32 = defaultOpcodeMap.call ∧
    State.reset.params.stackDepth = none ∧
    (shallow [1]).params.stackDepth = some 2 ∧ (shallow [1]).calls.length < 2 := by decide

theorem witness_CallOnAFullStackFaults :
    (shallow [1, 1]).params.stackDepth = some 2 ∧ 2 ≤ (shallow [1, 1]).calls.length := by decide

theorem witness_ReturnPopsOrDoesNothing :
    defaultOpcodeMap.admissible = true ∧ opcodeField 0x0F000000#32 = defaultOpcodeMap.ret ∧
    (cpu 1024 [] [] 0 [5]).calls = [] ++ [5#32] ∧ (cpu 1024 [] [] 0 [3, 8]).calls = [3#32] ++ [8#32] ∧
    State.reset.calls = [] := by decide

theorem witness_UndispatchedArithmeticFaults :
    defaultOpcodeMap.admissible = true ∧ opcodeField 0x02030102#32 = defaultOpcodeMap.sub ∧
    opcodeField 0x03030102#32 = defaultOpcodeMap.mul ∧ opcodeField 0x04030102#32 = defaultOpcodeMap.div ∧
    opcodeField 0x06010000#32 = defaultOpcodeMap.dec := by decide

theorem witness_LogicInstructionsFault :
    defaultOpcodeMap.admissible = true ∧ opcodeField 0x07030102#32 = defaultOpcodeMap.and ∧
    opcodeField 0x08030102#32 = defaultOpcodeMap.or ∧ opcodeField 0x09010101#32 = defaultOpcodeMap.xor ∧
    opcodeField 0x0A010000#32 = defaultOpcodeMap.not := by decide

theorem witness_JumpAndBranchesFault :
    defaultOpcodeMap.admissible = true ∧ opcodeField 0x0B0A0000#32 = defaultOpcodeMap.jmp ∧
    opcodeField 0x0C010205#32 = defaultOpcodeMap.beq ∧ opcodeField 0x0D010205#32 = defaultOpcodeMap.bne := by decide

theorem witness_AcceleratorInstructionsFault :
    defaultOpcodeMap.admissible = true ∧ opcodeField 0x12000000#32 = defaultOpcodeMap.fft ∧
    opcodeField 0x13010200#32 = defaultOpcodeMap.enc ∧ opcodeField 0x14000000#32 = defaultOpcodeMap.decrypt := by decide

theorem witness_UnassignedByteFaults :
    defaultOpcodeMap.admissible = true ∧ opcodeField 0x15000000#32 ∉ defaultOpcodeMap.codes ∧
    opcodeField 0xFF123456#32 ∉ defaultOpcodeMap.codes := by decide

theorem witness_IdiomsDoWhatTheyAreUsedFor :
    State.reset.regCount ≤ (16#8).toNat ∧ (15#8).toNat < State.reset.regCount ∧ State.reset.calls = [] := by decide

/-- INC r1 in the last cell. -/
def incLast : State := cpu 1024 (regs16 []) [(1023, 0x05010000#32)] 1023 []

theorem witness_StepRunsTheDecodedInstruction :
    incLast.configOk = true ∧ incLast.status = .running ∧ incLast.pc.toNat < incLast.params.memSize ∧
    decode incLast.params.opc (incLast.memRead (incLast.pc.setWidth 16)) = .inc 1 ∧
    Instr.wf incLast.params.opc (.inc 1) = true := by decide

theorem witness_FetchReadsTheCellAtThePc :
    incLast.configOk = true ∧ incLast.pc.toNat < incLast.params.memSize := by decide

/-- A faulting word in the last cell. -/
def faultLast : State := cpu 1024 (regs16 []) [(1023, 0x0B000000#32)] 1023 []

theorem witness_FaultingWordEndsTheRun :
    faultLast.configOk = true ∧ faultLast.status = .running ∧ faultLast.pc.toNat < faultLast.params.memSize ∧
    opcodeField faultLast.fetchWord ∉ faultLast.params.opc.dispatchedCodes := by decide

theorem witness_FaultInTheLastCellIsNotANormalEnd :
    faultLast.configOk = true ∧ faultLast.status = .running ∧
    faultLast.pc.toNat + 1 = faultLast.params.memSize ∧
    opcodeField faultLast.fetchWord ∉ faultLast.params.opc.dispatchedCodes := by decide

theorem witness_OnlyUndispatchedBytesAndFullStacksFault :
    (faultLast.status = .running ∧ step faultLast = .next (faultLast.afterFetch.raiseFault 0x0B#8) ∧
      (faultLast.afterFetch.raiseFault 0x0B#8).status = .faulted 0x0B#8) ∧
    ((shallow [1, 1]).status = .running ∧
      step (shallow [1, 1]) = .next ((shallow [1, 1]).afterFetch.raiseFault 0x0E#8) ∧
      ((shallow [1, 1]).afterFetch.raiseFault 0x0E#8).status = .faulted 0x0E#8) :=
  ⟨⟨rfl, rfl, rfl⟩, ⟨rfl, rfl, rfl⟩⟩

/-- Run off the end, at the loop test. -/
def offTheEnd : State := cpu 1024 (regs16 []) [] 1024 []

theorem witness_RunEndsNormallyExactlyPastTheMemory :
    offTheEnd.configOk = true ∧ offTheEnd.status = .running ∧ offTheEnd.params.memSize ≤ offTheEnd.pc.toNat ∧
    step offTheEnd = .next (offTheEnd.setStatus .halted) ∧ (offTheEnd.setStatus .halted).status = .halted :=
  ⟨by decide, rfl, by decide, rfl, rfl⟩

theorem witness_EndedRunsExecuteNothing :
    (offTheEnd.setStatus .halted).configOk = true ∧ (offTheEnd.setStatus .halted).Ended ∧
    (faultLast.raiseFault 0x0B#8).configOk = true ∧ (faultLast.raiseFault 0x0B#8).Ended := by
  unfold State.Ended; decide

theorem witness_EveryRunGoesOn : incLast.configOk = true := by decide

theorem witness_InadmissibleInstanceIsRefused :
    (cpu 1024 [] [] 0 []).regCount = 0 ∧ 256 < (cpu 1024 (List.replicate 257 0) [] 0 []).regCount ∧
    (cpu 0 [] [] 0 []).params.memSize = 0 ∧ 65536 < (cpu 65537 [] [] 0 []).params.memSize ∧
    ({ defaultParams with faultStatus := 0 } : Params).faultStatus = 0 ∧ ¬ twice.codes.Nodup ∧
    0x00#8 ∈ ({ defaultOpcodeMap with add := 0x00#8 } : OpcodeMap).codes ∧
    0xFF#8 ∈ ({ defaultOpcodeMap with add := 0xFF#8 } : OpcodeMap).codes := by
  refine ⟨rfl, ?_, rfl, by decide, rfl, by decide, by decide, by decide⟩
  show 256 < (List.replicate 257 (0 : Word)).length
  rw [List.length_replicate]; decide

/-- CALL 10 at address 4, a RET at address 10. -/
def callAt4 : State := cpu 1024 (regs16 []) [(4, 0x0E0A0000#32), (10, 0x0F000000#32)] 4 []

/-- The state after that CALL. -/
def calledAt4 : State := (callAt4.afterFetch.pushCall 5#32).setPc 10#32

theorem callAt4_step : step callAt4 = .next calledAt4 := rfl

/-- A RET with an entry to pop, and one without. -/
def retWith (calls : List Pc) : State := cpu 1024 (regs16 []) [(10, 0x0F000000#32)] 10 calls

theorem witness_PcAfterEachInstruction :
    (callAt4.status = .running ∧ callAt4.pc.toNat < callAt4.params.memSize ∧ step callAt4 = .next calledAt4 ∧
      decode callAt4.params.opc callAt4.fetchWord = .call 10 ∧ callAt4.stackFull = false) ∧
    (step (shallow [1, 1]) = .next ((shallow [1, 1]).afterFetch.raiseFault 0x0E#8) ∧
      decode (shallow [1, 1]).params.opc (shallow [1, 1]).fetchWord = .call 0 ∧ (shallow [1, 1]).stackFull = true) ∧
    (step (retWith [5]) = .next { (retWith [5]).afterFetch with calls := [], pc := 5#32 } ∧
      decode (retWith [5]).params.opc (retWith [5]).fetchWord = .ret ∧ (retWith [5]).calls = [] ++ [5#32]) ∧
    (step (retWith []) = .next (retWith []).afterFetch ∧
      decode (retWith []).params.opc (retWith []).fetchWord = .ret ∧ (retWith []).calls = []) ∧
    (step incLast = .next (incLast.afterFetch.setReg 1 1#32) ∧
      decode incLast.params.opc incLast.fetchWord = .inc 1) ∧
    (step faultLast = .next (faultLast.afterFetch.raiseFault 0x0B#8) ∧
      (decode faultLast.params.opc faultLast.fetchWord).dispatched = false) :=
  ⟨⟨rfl, by decide, rfl, rfl, rfl⟩, ⟨rfl, rfl, rfl⟩, ⟨rfl, rfl, rfl⟩, ⟨rfl, rfl, rfl⟩, ⟨rfl, rfl⟩, ⟨rfl, rfl⟩⟩

/-- ST of register 1 into the next word: `ST [21], r1` at address 20. -/
def storeNext : State := cpu 1024 (regs16 [0, 0x0F000000]) [(20, 0x11150100#32)] 20 []

/-- The state after that store. -/
def storedNext : State := storeNext.afterFetch.memWrite 21#16 0x0F000000#32

theorem witness_OnlyNamedInstructionsWriteStorage :
    (Memory.wf incLast.mem ∧ step incLast = .next (incLast.afterFetch.setReg 1 1#32) ∧
      (incLast.afterFetch.setReg 1 1#32).getReg 1 ≠ incLast.getReg 1) ∧
    (Memory.wf storeNext.mem ∧ step storeNext = .next storedNext ∧ storedNext.memRead 21 ≠ storeNext.memRead 21) ∧
    (Memory.wf callAt4.mem ∧ step callAt4 = .next calledAt4 ∧ calledAt4.calls ≠ callAt4.calls) :=
  ⟨⟨by decide, rfl, by decide⟩, ⟨by decide, rfl, by decide⟩, ⟨by decide, rfl, by decide⟩⟩

theorem witness_StoreIntoTheNextWordIsExecuted :
    storeNext.configOk = true ∧ Memory.wf storeNext.mem ∧ storeNext.status = .running ∧
    storeNext.pc.toNat < storeNext.params.memSize ∧
    decode storeNext.params.opc storeNext.fetchWord = .st 21 1 ∧
    (21#8).toNat = storeNext.pc.toNat + 1 ∧ (21#8).toNat < storeNext.params.memSize := by decide

theorem callAt4_inv : callAt4.Inv where
  config := by decide
  memCanonical := by decide
  memInRange := by decide
  pcRange := by decide
  callsRange := fun v h => by rw [show callAt4.calls = [] from rfl] at h; cases h
  callsDepth := fun n h => by rw [show callAt4.params.stackDepth = none from rfl] at h; cases h
  haltedPc := fun h => by rw [show callAt4.status = .running from rfl] at h; cases h
  faultedPc := fun b h => by rw [show callAt4.status = .running from rfl] at h; cases h
  faultedByte := fun b h => by rw [show callAt4.status = .running from rfl] at h; cases h

theorem witness_StepKeepsTheInvariant : callAt4.Inv ∧ step callAt4 = .next calledAt4 :=
  ⟨callAt4_inv, callAt4_step⟩

/-- The first and the last cell of a smallest and of a largest memory: written twice, written once, not written. -/
theorem witness_EveryLaunchHasTheInvariant :
    (Params.admissible { defaultParams with memSize := 1 } [7#32].length = true ∧
      (0 < 1 ∧ [(0, 3#32), (1, 9#32), (0, 4#32)] = [(0, 3#32), (1, 9#32)] ++ (0, 4#32) :: [] ∧
        ∀ c ∈ ([] : List (Nat × Word)), c.1 ≠ 0)) ∧
    (Params.admissible { defaultParams with memSize := 65536 } (List.replicate 256 7#32).length = true ∧
      (65535 < 65536 ∧ [(65535, 3#32), (0, 0#32)] = [] ++ (65535, 3#32) :: [(0, 0#32)] ∧
        ∀ c ∈ [(0, 0#32)], c.1 ≠ 65535) ∧
      ∀ c ∈ [(65535, 3#32), (0, 0#32)], c.1 ≠ 65534) := by
  rw [List.length_replicate]; decide

/-- A launch keeps the last write to each cell and drops a write outside the memory (10_state.md R28, 20_memory.md
R34). -/
theorem test_launch_memory :
    (State.launch { defaultParams with memSize := 2 } [7#32] [(0, 3#32), (1, 9#32), (2, 5#32), (0, 4#32)]).mem =
      [(0, 4#32), (1, 9#32)] := by decide

theorem witness_ConstructionAnswersTheLaunchState :
    defaultParams.admissible (regs16 []).length = true ∧ defaultParams.admissible ([] : List Word).length = false := by
  decide

theorem callAt4_run : RunsTo 1 callAt4 calledAt4 := ⟨calledAt4, callAt4_step, rfl⟩

theorem witness_ParametersNeverChange : RunsTo 1 callAt4 calledAt4 := callAt4_run

theorem witness_CellsAbove255AreNeverWritten :
    Memory.wf storeNext.mem ∧ RunsTo 1 storeNext storedNext ∧ 256 ≤ (256#16).toNat :=
  ⟨by decide, ⟨storedNext, rfl, rfl⟩, by decide⟩

theorem witness_CallStackBelowIsUntouched :
    [] <+: callAt4.calls ∧ (∀ k u, k ≤ 1 → RunsTo k callAt4 u → ([] : List Pc).length ≤ u.calls.length) ∧
    RunsTo 1 callAt4 calledAt4 ∧ [3#32] <+: (retWith [3, 8]).calls :=
  ⟨List.nil_prefix, fun _ _ _ _ => Nat.zero_le _, callAt4_run, ⟨[8#32], rfl⟩⟩

theorem witness_ReturnResumesAfterItsCall :
    callAt4.status = .running ∧ callAt4.pc.toNat < callAt4.params.memSize ∧
    decode callAt4.params.opc callAt4.fetchWord = .call 10 ∧ callAt4.stackFull = false ∧
    step callAt4 = .next calledAt4 ∧
    (∀ k v, k ≤ 0 → RunsTo k calledAt4 v → callAt4.calls.length < v.calls.length) ∧ RunsTo 0 calledAt4 calledAt4 ∧
    calledAt4.status = .running ∧ calledAt4.pc.toNat < calledAt4.params.memSize ∧
    decode calledAt4.params.opc calledAt4.fetchWord = .ret ∧
    calledAt4.calls.length = callAt4.calls.length + 1 := by
  refine ⟨rfl, by decide, rfl, rfl, rfl, ?_, rfl, rfl, by decide, rfl, rfl⟩
  intro k v hk hv
  obtain rfl := Nat.le_zero.mp hk
  rw [show v = calledAt4 from hv]
  decide

/-- A CALL whose subroutine at 10 calls another one, at 20, before it returns. -/
def nestedCall : State :=
  cpu 1024 (regs16 []) [(4, 0x0E0A0000#32), (10, 0x0E140000#32), (11, 0x0F000000#32), (20, 0x0F000000#32)] 4 []

/-- The states after one, two and three steps of it. -/
def nested1 : State := (nestedCall.afterFetch.pushCall 5#32).setPc 10#32
def nested2 : State := (nested1.afterFetch.pushCall 11#32).setPc 20#32
def nested3 : State := { nested2.afterFetch with calls := [5#32], pc := 11#32 }

/-- The same with two steps between the CALL and its RET: an inner CALL and the RET that pops its entry. -/
theorem witness_ReturnResumesAfterItsCall_nested :
    nestedCall.status = .running ∧ nestedCall.pc.toNat < nestedCall.params.memSize ∧
    decode nestedCall.params.opc nestedCall.fetchWord = .call 10 ∧ nestedCall.stackFull = false ∧
    step nestedCall = .next nested1 ∧
    (∀ k v, k ≤ 2 → RunsTo k nested1 v → nestedCall.calls.length < v.calls.length) ∧ RunsTo 2 nested1 nested3 ∧
    nested3.status = .running ∧ nested3.pc.toNat < nested3.params.memSize ∧
    decode nested3.params.opc nested3.fetchWord = .ret ∧
    nested3.calls.length = nestedCall.calls.length + 1 := by
  have run1 : RunsTo 1 nested1 nested2 := ⟨nested2, rfl, rfl⟩
  have run2 : RunsTo 2 nested1 nested3 := ⟨nested2, rfl, nested3, rfl, rfl⟩
  refine ⟨rfl, by decide, rfl, rfl, rfl, ?_, run2, rfl, by decide, rfl, rfl⟩
  intro k v hk hv
  obtain rfl | rfl | rfl : k = 0 ∨ k = 1 ∨ k = 2 := by omega
  · rw [show v = nested1 from hv]; decide
  · rw [runsTo_unique hv run1]; decide
  · rw [runsTo_unique hv run2]; decide

/-- An INC and a RET on an empty call stack. -/
def incThenRet : State := cpu 1024 (regs16 []) [(0, 0x05010000#32), (1, 0x0F000000#32)] 0 []

/-- The state after the INC. -/
def incDone : State := incThenRet.afterFetch.setReg 1 1#32

theorem witness_PcWalksUpWithoutCallAndRet :
    RunsTo 2 incThenRet incDone.afterFetch ∧ incDone.afterFetch.status = .running ∧
    (∀ k u, k < 2 → RunsTo k incThenRet u →
      (decode u.params.opc u.fetchWord = .ret → u.calls = []) ∧
      ∀ r1, decode u.params.opc u.fetchWord ≠ .call r1) ∧
    decode incDone.params.opc incDone.fetchWord = .ret := by
  refine ⟨⟨incDone, rfl, _, rfl, rfl⟩, rfl, fun k u hk hu => ?_, rfl⟩
  obtain rfl | rfl : k = 0 ∨ k = 1 := by omega
  · rw [show u = incThenRet from hu, show decode incThenRet.params.opc incThenRet.fetchWord = .inc 1 from rfl]
    exact ⟨fun h => (by cases h), fun r1 h => by cases h⟩
  · rw [runsTo_unique hu (show RunsTo 1 incThenRet incDone from ⟨incDone, rfl, rfl⟩),
      show decode incDone.params.opc incDone.fetchWord = .ret from rfl]
    exact ⟨fun _ => rfl, fun r1 h => by cases h⟩

theorem witness_CallStackIsHiddenExceptFromRet :
    callAt4.params.stackDepth = none ∧ decode callAt4.params.opc callAt4.fetchWord ≠ .ret ∧
    step callAt4 = .next calledAt4 :=
  ⟨rfl, by decide, rfl⟩

theorem witness_TraceIsWrittenAndNeverRead :
    (step callAt4 = .next calledAt4 ∧ callAt4.status = .running ∧ callAt4.pc.toNat < callAt4.params.memSize) ∧
    (step offTheEnd = .next (offTheEnd.setStatus .halted) ∧ offTheEnd.params.memSize ≤ offTheEnd.pc.toNat) ∧
    (step (offTheEnd.setStatus .halted) = .next (offTheEnd.setStatus .halted) ∧
      (offTheEnd.setStatus .halted).status ≠ .running) :=
  ⟨⟨rfl, rfl, by decide⟩, ⟨rfl, by decide⟩, ⟨rfl, by decide⟩⟩

theorem witness_HostAccessDuringARunIsRefused :
    (HostSession.mk callAt4 true).inRun = true ∧ (HostSession.mk callAt4 true).core.status = .running := by decide

theorem witness_HostReadsWhatItWrote :
    (HostSession.mk callAt4 false).inRun = false ∧ Memory.wf (HostSession.mk callAt4 false).core.mem := by decide

theorem witness_RunReportsItsEnd :
    (HostSession.mk callAt4 false).inRun = false ∧
    (callAt4.status = .running ∧ step callAt4 = .next calledAt4 ∧ calledAt4.status = .running) ∧
    (offTheEnd.status = .running ∧ step offTheEnd = .next (offTheEnd.setStatus .halted) ∧
      (offTheEnd.setStatus .halted).status = .halted) ∧
    (faultLast.status = .running ∧ step faultLast = .next (faultLast.afterFetch.raiseFault 0x0B#8) ∧
      (faultLast.afterFetch.raiseFault 0x0B#8).status = .faulted 0x0B#8) :=
  ⟨rfl, ⟨rfl, rfl, rfl⟩, ⟨rfl, rfl, rfl⟩, ⟨rfl, rfl, rfl⟩⟩

theorem witness_RunAgainExecutesNothing :
    (HostSession.mk (offTheEnd.setStatus .halted) false).inRun = false ∧ (offTheEnd.setStatus .halted).Ended ∧
    (faultLast.raiseFault 0x0B#8).Ended := by
  unfold State.Ended; decide

theorem witness_PlacedWordRunsNext : callAt4.Inv := callAt4_inv

end Sys2Proof.Machine.Tests
end

section
/-! The scope of the model: which instances a step accepts (00_scope.md R6, 92_eei_decisions.md D7). -/

namespace Sys2Proof.Machine

/-- The accepted ranges of the construction-time parameters, all in one place (00_scope.md R6, 30_encoding.md R52). -/
theorem State.configOk_iff (s : State) :
    s.configOk = true ↔
      1 ≤ s.regCount ∧ s.regCount ≤ 256 ∧ 1 ≤ s.params.memSize ∧ s.params.memSize ≤ 65536 ∧
        s.params.faultStatus ≠ 0 ∧
        s.params.opc.codes.Nodup ∧ 0x00#8 ∉ s.params.opc.codes ∧ 0xFF#8 ∉ s.params.opc.codes := by
  rw [State.configOk, Params.admissible_iff, OpcodeMap.admissible_iff]

/-- The third case beside `step_of_running` and `step_of_ended`: the status and the pc play no part in it. -/
theorem step_of_not_configOk {s : State} (hc : ¬ s.configOk = true) :
    step s = .refused .inadmissibleConfiguration := by
  unfold step runLoopPass
  exact if_neg hc

/-- Settles O38: each alternative contradicts its own conjunct of `State.configOk_iff`. -/
theorem inadmissibleInstanceIsRefused : Obligations.InadmissibleInstanceIsRefused := by
  intro s outside
  refine step_of_not_configOk fun hc => ?_
  obtain ⟨regPos, regLe, memPos, memLe, statusNe, nodup, no00, noFF⟩ := s.configOk_iff.mp hc
  rcases outside with noReg | manyRegs | noMem | bigMem | status0 | repeated | has00 | hasFF
  · omega
  · omega
  · omega
  · omega
  · exact statusNe status0
  · exact repeated nodup
  · exact no00 has00
  · exact noFF hasFF

end Sys2Proof.Machine
end

section
/-! Facts about decoding, instructions, steps and the memory that the statements about the state rest on. -/

namespace Sys2Proof

/-- Whatever the map, the decoded instruction carries the word's own opcode byte (30_encoding.md R53). -/
theorem opcodeByte_decode (opc : OpcodeMap) (w : Word) : (decode opc w).opcodeByte opc = opcodeField w := by
  unfold decode
  cases found : mnemonicOf opc (opcodeField w) with
  | none => rfl
  | some m => have code := code_of_mnemonicOf found; cases m <;> exact code

/-- A dispatched instruction comes exactly from a word with one of the six dispatched codes (41_cycle.md R75). Distinct
codes are needed from right to left: without them a byte may find another mnemonic first. -/
theorem dispatched_decode_iff {opc : OpcodeMap} (distinct : opc.codes.Nodup) (w : Word) :
    (decode opc w).dispatched = true ↔ opcodeField w ∈ opc.dispatchedCodes := by
  constructor
  · intro disp
    unfold decode at disp
    cases found : mnemonicOf opc (opcodeField w) with
    | none => rw [found] at disp; cases disp
    | some m =>
      rw [found] at disp
      rw [← code_of_mnemonicOf found]
      cases m
      case add | inc | st | call | ret | ld => simp [OpcodeMap.dispatchedCodes, OpcodeMap.code]
      all_goals cases disp
  · intro mem
    have codes : opc.dispatchedCodes = [.add, .inc, .st, .call, .ret, .ld].map opc.code := rfl
    obtain ⟨m, six, code⟩ := List.mem_map.mp (codes ▸ mem)
    rw [decode, ← code, mnemonicOf_code distinct]
    simp only [List.mem_cons, List.not_mem_nil, or_false] at six
    rcases six with rfl | rfl | rfl | rfl | rfl | rfl <;> rfl

end Sys2Proof

namespace Sys2Proof.Machine

/-! ### The program counter and the call stack as numbers -/

@[simp] theorem targetOperand_toNat (field : Byte) : (targetOperand field).toNat = field.toNat := by
  have := field.isLt
  rw [targetOperand, BitVec.toNat_setWidth, Nat.mod_eq_of_lt (by omega)]

/-- The pre-increment of a fetch does not wrap around (10_state.md R20): the memory ends far below 2^32. -/
theorem State.pc_succ_toNat {s : State} (config : s.configOk = true) (inside : s.pc.toNat < s.params.memSize) :
    (s.pc + 1#32).toNat = s.pc.toNat + 1 := by
  obtain ⟨-, -, -, memLe, -⟩ := s.configOk_iff.mp config
  rw [BitVec.toNat_add, BitVec.toNat_ofNat]
  omega

/-- There is room on the call stack when no finite capacity is reached (10_state.md R22). -/
theorem State.stackFull_eq_false_iff (s : State) :
    s.stackFull = false ↔ ∀ n, s.params.stackDepth = some n → s.calls.length < n := by
  unfold stackFull
  cases s.params.stackDepth <;> simp

theorem State.stackFull_of_unbounded {s : State} (unbounded : s.params.stackDepth = none) : s.stackFull = false :=
  s.stackFull_eq_false_iff.mpr fun n finite => by rw [unbounded] at finite; cases finite

/-! ### Instructions -/

theorem exec_call_of_room {s : State} (room : s.stackFull = false) (r1 : Byte) :
    exec (.call r1) s = .next ((s.pushCall s.pc).setPc (targetOperand r1)) := by
  simp [exec, execCall, room]

theorem exec_call_of_full {s : State} (full : s.stackFull = true) (r1 : Byte) :
    exec (.call r1) s = .next (s.raiseFault s.params.opc.call) := by
  simp [exec, execCall, full]

theorem exec_ret_of_empty {s : State} (empty : s.calls = []) : exec .ret s = .next s := by
  simp [exec, execRet, s.popCall_eq_none.mpr empty]

theorem exec_ret_of_concat {s : State} {rest : List Pc} {v : Pc} (top : s.calls = rest ++ [v]) :
    exec .ret s = .next { s with calls := rest, pc := v } := by
  have pop : s.popCall = some (v, { s with calls := rest }) := s.popCall_eq_some.mpr ⟨top, rfl⟩
  simp only [exec, execRet, pop]
  rfl

/-- The fourteen declared mnemonics and the unassigned bytes all take the fatal fault with their own byte
(60_exceptions.md R110). -/
theorem exec_of_not_dispatched {i : Instr} (undispatched : i.dispatched = false) (s : State) :
    exec i s = .next (s.raiseFault (i.opcodeByte s.params.opc)) := by
  cases i
  case add | inc | st | call | ret | ld => cases undispatched
  all_goals rfl

/-- What an instruction does to the pc and the call stack: only a CALL with room and a popping RET touch them
(10_state.md R19, R21). -/
theorem exec_control_cases {i : Instr} {s t : State} (h : exec i s = .next t) :
    (t.calls = s.calls ∧ t.pc = s.pc) ∨
    (∃ r1, i = .call r1 ∧ t.calls = s.calls ++ [s.pc] ∧ t.pc = targetOperand r1) ∨
    (∃ v, i = .ret ∧ s.calls = t.calls ++ [v] ∧ t.pc = v) := by
  rcases exec_cases h with ⟨_, _, _, -, rfl⟩ | ⟨_, -, rfl⟩ | ⟨_, _, -, rfl⟩ | ⟨_, _, -, rfl⟩ | ⟨r1, call, -, rfl⟩ |
    ⟨_, -, -, rfl⟩ | ⟨-, -, rfl⟩ | ⟨v, ret, pop, e⟩ | ⟨-, rfl⟩
  case inr.inr.inr.inr.inl => exact .inr (.inl ⟨r1, call, rfl, rfl⟩)
  case inr.inr.inr.inr.inr.inr.inr.inl => exact .inr (.inr ⟨v, ret, pop, by rw [e]⟩)
  all_goals simp

/-- A register write changes the read of no register but its own. -/
theorem State.eq_of_setReg_getReg_ne {s : State} {i j : Byte} {v : Word}
    (changed : (s.setReg i v).getReg j ≠ s.getReg j) : j = i := by
  by_contra other
  exact changed (by rw [s.setReg_getReg, if_neg fun both => other both.1])

/-- A memory write changes the read of no cell but its own. -/
theorem State.eq_of_memWrite_memRead_ne {s : State} {a b : Addr} {v : Word} (canonical : Memory.wf s.mem)
    (changed : (s.memWrite a v).memRead b ≠ s.memRead b) : b = a := by
  by_contra other
  exact changed (by rw [s.memWrite_memRead canonical, if_neg fun both => other both.1])

/-- Only ADD, INC and LD change a register, and only the one their field `r1` names (10_state.md R17). -/
theorem exec_register_writer {i : Instr} {s t : State} (h : exec i s = .next t) {j : Byte}
    (changed : t.getReg j ≠ s.getReg j) :
    (∃ r2 r3, i = .add j r2 r3) ∨ i = .inc j ∨ ∃ r2, i = .ld j r2 := by
  rcases exec_cases h with ⟨r1, r2, r3, rfl, rfl⟩ | ⟨r1, rfl, rfl⟩ | ⟨r1, r2, rfl, rfl⟩ | ⟨_, _, -, rfl⟩ |
    ⟨_, -, -, rfl⟩ | ⟨_, -, -, rfl⟩ | ⟨-, -, rfl⟩ | ⟨_, -, -, e⟩ | ⟨-, rfl⟩
  · exact .inl ⟨r2, r3, by rw [State.eq_of_setReg_getReg_ne changed]⟩
  · exact .inr (.inl (by rw [State.eq_of_setReg_getReg_ne changed]))
  · exact .inr (.inr ⟨r2, by rw [State.eq_of_setReg_getReg_ne changed]⟩)
  case inr.inr.inr.inr.inr.inr.inr.inl => exact absurd (by rw [e]; rfl) changed
  all_goals simp at changed

/-- Only ST changes a memory cell, and only the one its field `r1` addresses (45_loadstore.md R103). -/
theorem exec_memory_writer {i : Instr} {s t : State} (canonical : Memory.wf s.mem) (h : exec i s = .next t) {a : Addr}
    (changed : t.memRead a ≠ s.memRead a) : ∃ r1 r2, i = .st r1 r2 ∧ memOperand r1 = a := by
  rcases exec_cases h with ⟨_, _, _, -, rfl⟩ | ⟨_, -, rfl⟩ | ⟨_, _, -, rfl⟩ | ⟨r1, r2, rfl, rfl⟩ |
    ⟨_, -, -, rfl⟩ | ⟨_, -, -, rfl⟩ | ⟨-, -, rfl⟩ | ⟨_, -, -, e⟩ | ⟨-, rfl⟩
  case inr.inr.inr.inl =>
    exact ⟨r1, r2, rfl, (State.eq_of_memWrite_memRead_ne canonical changed).symm⟩
  case inr.inr.inr.inr.inr.inr.inr.inl => exact absurd (by rw [e]; rfl) changed
  all_goals simp at changed

/-- With the unbounded stack every instruction but RET acts the same above any other call stack, and pushes the same
(10_state.md R22). -/
theorem exec_of_other_calls {i : Instr} {s t : State} (other : List Pc) (unbounded : s.params.stackDepth = none)
    (notRet : i ≠ .ret) (h : exec i s = .next t) :
    ∃ pushed, t.calls = s.calls ++ pushed ∧
      exec i { s with calls := other } = .next { t with calls := other ++ pushed } := by
  rcases exec_cases h with ⟨_, _, _, rfl, rfl⟩ | ⟨_, rfl, rfl⟩ | ⟨_, _, rfl, rfl⟩ | ⟨_, _, rfl, rfl⟩ |
    ⟨r1, rfl, -, rfl⟩ | ⟨_, -, full, -⟩ | ⟨ret, -, -⟩ | ⟨_, ret, -, -⟩ | ⟨undispatched, rfl⟩
  case inr.inr.inr.inr.inl =>
    have room : State.stackFull { s with calls := other } = false := State.stackFull_of_unbounded unbounded
    exact ⟨[s.pc], rfl, exec_call_of_room room r1⟩
  case inr.inr.inr.inr.inr.inl => rw [State.stackFull_of_unbounded unbounded] at full; cases full
  case inr.inr.inr.inr.inr.inr.inl => exact absurd ret notRet
  case inr.inr.inr.inr.inr.inr.inr.inl => exact absurd ret notRet
  case inr.inr.inr.inr.inr.inr.inr.inr =>
    exact ⟨[], by simp, by rw [exec_of_not_dispatched undispatched, List.append_nil]; rfl⟩
  case inr.inr.inr.inl =>
    exact ⟨[], by simp, by simp only [exec, execSt, State.memWrite_eq, List.append_nil]; rfl⟩
  all_goals
    exact ⟨[], by simp, by simp only [exec, execAdd, execInc, execLd, State.setReg_eq, List.append_nil]; rfl⟩

/-! ### Steps -/

/-- The loop test ends the run of a running CORE that stands past the memory (41_cycle.md R80). -/
theorem step_of_past_end {s : State} (config : s.configOk = true) (running : s.status = .running)
    (past : s.params.memSize ≤ s.pc.toNat) : step s = .next (s.setStatus .halted) := by
  unfold step runLoopPass
  rw [if_pos config, running]
  exact if_pos past

/-- What a step does to the call stack: nothing, a push by a CALL, or a pop by a RET (10_state.md R21). -/
theorem step_calls_cases {s t : State} (h : step s = .next t) :
    t.calls = s.calls ∨
    (∃ r1, decode s.params.opc s.fetchWord = .call r1 ∧ t.calls = s.calls ++ [s.pc + 1#32]) ∨
    (decode s.params.opc s.fetchWord = .ret ∧ ∃ v, s.calls = t.calls ++ [v]) := by
  obtain ⟨-, ⟨-, rfl⟩ | ⟨-, -, rfl⟩ | ⟨-, -, he⟩⟩ := step_cases h
  · exact .inl rfl
  · exact .inl rfl
  · rcases exec_control_cases he with ⟨same, -⟩ | ⟨r1, call, push, -⟩ | ⟨v, ret, pop, -⟩
    · exact .inl same
    · exact .inr (.inl ⟨r1, call, push⟩)
    · exact .inr (.inr ⟨ret, v, pop⟩)

/-! ### The memory that a list of writes leaves -/

/-- Writes to other cells do not change a cell. -/
theorem Memory.read_ofWrites_append (size : Nat) (image : List (Nat × Word)) {after : List (Nat × Word)} {a : Nat}
    (others : ∀ c ∈ after, c.1 ≠ a) :
    Memory.read (Memory.ofWrites size (image ++ after)) a = Memory.read (Memory.ofWrites size image) a := by
  induction after using List.reverseRecOn with
  | nil => rw [List.append_nil]
  | append_singleton after c ih =>
    have last : c.1 ≠ a := others c (by simp)
    rw [← List.append_assoc, Memory.read_ofWrites_concat, if_neg fun same => last same.1.symm]
    exact ih fun d hd => others d (by simp [hd])

end Sys2Proof.Machine
end

section
/-! The invariant of the CORE (`State.Inv`): kept by every state update a step is made of, so by every step. -/

namespace Sys2Proof.Machine.State.Inv

/-- While the status is running, the three parts of the invariant about an ended run say nothing. -/
theorem of_running {s : State} (running : s.status = .running) (config : s.configOk = true)
    (memCanonical : Memory.wf s.mem) (memInRange : ∀ c ∈ s.mem, c.1 < s.params.memSize)
    (pcRange : s.pc.toNat ≤ max s.params.memSize 255)
    (callsRange : ∀ v ∈ s.calls, 1 ≤ v.toNat ∧ v.toNat ≤ s.params.memSize)
    (callsDepth : ∀ n, s.params.stackDepth = some n → s.calls.length ≤ n) : s.Inv where
  config := config
  memCanonical := memCanonical
  memInRange := memInRange
  pcRange := pcRange
  callsRange := callsRange
  callsDepth := callsDepth
  haltedPc := by simp [running]
  faultedPc := by simp [running]
  faultedByte := by simp [running]

variable {s : State}

theorem afterFetch (inv : s.Inv) (running : s.status = .running) (inside : s.pc.toNat < s.params.memSize) :
    s.afterFetch.Inv := by
  refine of_running running inv.config inv.memCanonical inv.memInRange ?_ inv.callsRange inv.callsDepth
  have succ : s.afterFetch.pc.toNat = s.pc.toNat + 1 := pc_succ_toNat inv.config inside
  rw [succ, afterFetch_params]
  omega

theorem setReg (inv : s.Inv) (i : Byte) (v : Word) : (s.setReg i v).Inv where
  config := by simpa using inv.config
  memCanonical := by simpa using inv.memCanonical
  memInRange := by simpa using inv.memInRange
  pcRange := by simpa using inv.pcRange
  callsRange := by simpa using inv.callsRange
  callsDepth := by simpa using inv.callsDepth
  haltedPc := by simpa using inv.haltedPc
  faultedPc := by simpa using inv.faultedPc
  faultedByte := by simpa using inv.faultedByte

theorem memWrite (inv : s.Inv) (a : Addr) (v : Word) : (s.memWrite a v).Inv where
  config := by simpa using inv.config
  memCanonical := s.memWrite_wf inv.memCanonical a v
  memInRange := by simpa using s.memWrite_range inv.memInRange a v
  pcRange := by simpa using inv.pcRange
  callsRange := by simpa using inv.callsRange
  callsDepth := by simpa using inv.callsDepth
  haltedPc := by simpa using inv.haltedPc
  faultedPc := by simpa using inv.faultedPc
  faultedByte := by simpa using inv.faultedByte

/-- Moving the pc and exchanging the call stack, as CALL and RET do. -/
theorem setControl (inv : s.Inv) (running : s.status = .running) {pc : Pc} {calls : List Pc}
    (pcRange : pc.toNat ≤ max s.params.memSize 255)
    (callsRange : ∀ v ∈ calls, 1 ≤ v.toNat ∧ v.toNat ≤ s.params.memSize)
    (callsDepth : ∀ n, s.params.stackDepth = some n → calls.length ≤ n) :
    State.Inv { s with calls := calls, pc := pc } :=
  of_running running inv.config inv.memCanonical inv.memInRange pcRange callsRange callsDepth

theorem setStatus_halted (inv : s.Inv) (past : s.params.memSize ≤ s.pc.toNat) : (s.setStatus .halted).Inv where
  config := inv.config
  memCanonical := inv.memCanonical
  memInRange := inv.memInRange
  pcRange := inv.pcRange
  callsRange := inv.callsRange
  callsDepth := inv.callsDepth
  haltedPc := fun _ => past
  faultedPc := by simp
  faultedByte := by simp

theorem raiseFault (inv : s.Inv) {b : Byte} (pcRange : 1 ≤ s.pc.toNat ∧ s.pc.toNat ≤ s.params.memSize)
    (byte : b ∉ s.params.opc.dispatchedCodes ∨ (b = s.params.opc.call ∧ s.stackFull = true)) :
    (s.raiseFault b).Inv where
  config := inv.config
  memCanonical := inv.memCanonical
  memInRange := inv.memInRange
  pcRange := inv.pcRange
  callsRange := inv.callsRange
  callsDepth := inv.callsDepth
  haltedPc := by simp
  faultedPc := fun _ _ => pcRange
  faultedByte := by rintro _ ⟨⟩; exact byte

/-- A CALL with room: the pushed pc is an entry the invariant allows, the target at most 255 (10_state.md R20, R22). -/
theorem call (inv : s.Inv) (running : s.status = .running)
    (pcRange : 1 ≤ s.pc.toNat ∧ s.pc.toNat ≤ s.params.memSize) (room : s.stackFull = false) (r1 : Byte) :
    ((s.pushCall s.pc).setPc (targetOperand r1)).Inv := by
  refine inv.setControl running ?_ ?_ ?_
  · have := r1.isLt
    rw [targetOperand_toNat]
    omega
  · intro v mem
    rcases List.mem_append.mp mem with below | top
    · exact inv.callsRange v below
    · rw [List.mem_singleton.mp top]; exact pcRange
  · intro n finite
    have := s.stackFull_eq_false_iff.mp room n finite
    simpa using this

/-- A popping RET: the popped entry is a pc the invariant allows. -/
theorem ret (inv : s.Inv) (running : s.status = .running) {rest : List Pc} {v : Pc} (top : s.calls = rest ++ [v]) :
    State.Inv { s with calls := rest, pc := v } := by
  refine inv.setControl running ?_ ?_ ?_
  · have := inv.callsRange v (by simp [top])
    omega
  · exact fun u mem => inv.callsRange u (by simp [top, mem])
  · intro n finite
    have := inv.callsDepth n finite
    rw [top, List.length_append] at this
    omega

/-- The dispatch keeps the invariant, from a state one past a word inside the memory. That an undispatched instruction's
byte is none of the six codes is known of a decoded instruction (`dispatched_decode_iff`). -/
theorem exec (inv : s.Inv) (running : s.status = .running)
    (pcRange : 1 ≤ s.pc.toNat ∧ s.pc.toNat ≤ s.params.memSize) {i : Instr} {t : State}
    (byte : i.dispatched = false → i.opcodeByte s.params.opc ∉ s.params.opc.dispatchedCodes)
    (h : Machine.exec i s = .next t) : t.Inv := by
  rcases exec_cases h with ⟨_, _, _, -, rfl⟩ | ⟨_, -, rfl⟩ | ⟨_, _, -, rfl⟩ | ⟨_, _, -, rfl⟩ | ⟨r1, -, room, rfl⟩ |
    ⟨_, -, full, rfl⟩ | ⟨-, -, rfl⟩ | ⟨v, -, pop, e⟩ | ⟨undispatched, rfl⟩
  · exact inv.setReg _ _
  · exact inv.setReg _ _
  · exact inv.setReg _ _
  · exact inv.memWrite _ _
  · exact inv.call running pcRange room r1
  · exact inv.raiseFault pcRange (.inr ⟨rfl, full⟩)
  · exact inv
  · rw [e]; exact inv.ret running pop
  · exact inv.raiseFault pcRange (.inl (byte undispatched))

/-- The three kinds of step: over an ended run, the normal end, and the dispatch after a fetch. -/
theorem step (inv : s.Inv) {t : State} (h : Machine.step s = .next t) : t.Inv := by
  obtain ⟨config, ⟨-, rfl⟩ | ⟨-, past, rfl⟩ | ⟨running, inside, he⟩⟩ := step_cases h
  · exact inv
  · exact inv.setStatus_halted past
  · refine (inv.afterFetch running inside).exec running ?_ ?_ he
    · have succ : s.afterFetch.pc.toNat = s.pc.toNat + 1 := pc_succ_toNat config inside
      rw [succ, afterFetch_params]
      omega
    · intro undispatched
      obtain ⟨-, -, -, -, -, distinct, -⟩ := s.configOk_iff.mp config
      rw [afterFetch_params, opcodeByte_decode, ← dispatched_decode_iff distinct, undispatched]
      simp

theorem launch {p : Params} {regInit : List Word} (admissible : p.admissible regInit.length = true)
    (memInit : List (Nat × Word)) : (State.launch p regInit memInit).Inv :=
  of_running rfl admissible (Memory.ofWrites_wf _ _) (Memory.ofWrites_range _ _) (Nat.zero_le _)
    (by simp [State.launch]) (by simp [State.launch])

end Sys2Proof.Machine.State.Inv
end

section
/-! The state of the CORE (10_state.md): its registers, pc and call stack, and what a launch, a reset, a step and a run
leave of them. -/

namespace Sys2Proof.Machine

/-- Settles O42: the invariant is that of the state at dispatch, and each instruction's update keeps it. -/
theorem stepKeepsTheInvariant : Obligations.StepKeepsTheInvariant :=
  fun _ _ inv h => inv.step h

/-- Settles O35, by induction on the number of steps: each answers the state it was taken from. -/
theorem endedRunsExecuteNothing : Obligations.EndedRunsExecuteNothing := by
  intro s config ended n
  have stay : RunsTo n s s := by
    induction n with
    | zero => rfl
    | succ n ih => exact ⟨s, step_of_ended config ended, ih⟩
  exact ⟨stay, fun t run => runsTo_unique run stay⟩

/-- Settles O39: the pc at dispatch is `a + 1`, and only a CALL with room and a popping RET move it. -/
theorem pcAfterEachInstruction : Obligations.PcAfterEachInstruction := by
  intro s t running inside h
  have config := (step_cases h).1
  rw [step_of_running config running inside] at h
  have succ : s.afterFetch.pc.toNat = s.pc.toNat + 1 := State.pc_succ_toNat config inside
  refine ⟨fun r1 call room => ?_, fun r1 call full => ?_, fun rest v ret top => ?_, fun ret empty => ?_,
    fun notCall notRet => ?_, fun undispatched => ?_⟩
  · rw [call, exec_call_of_room (by simpa using room)] at h
    cases h
    exact targetOperand_toNat r1
  · rw [call, exec_call_of_full (by simpa using full)] at h
    cases h
    exact succ
  · rw [ret, exec_ret_of_concat (by simpa using top)] at h
    cases h
    rfl
  · rw [ret, exec_ret_of_empty (by simpa using empty)] at h
    cases h
    exact succ
  · rcases exec_control_cases h with ⟨-, pc⟩ | ⟨r1, call, -⟩ | ⟨v, ret, -⟩
    · rw [pc, succ]
    · exact absurd call (notCall r1)
    · exact absurd ret notRet
  · rw [exec_of_not_dispatched undispatched, State.afterFetch_params, opcodeByte_decode] at h
    cases h
    rfl

/-- Settles O40: an ended run and the normal end write nothing, and each kind of storage has its own writers. -/
theorem onlyNamedInstructionsWriteStorage : Obligations.OnlyNamedInstructionsWriteStorage := by
  intro s t canonical h
  refine ⟨fun i changed => ?_, fun a changed => ?_, fun changed => ?_⟩
  · obtain ⟨-, ⟨-, rfl⟩ | ⟨-, -, rfl⟩ | ⟨-, -, he⟩⟩ := step_cases h
    · exact absurd rfl changed
    · exact absurd rfl changed
    · exact exec_register_writer he changed
  · obtain ⟨-, ⟨-, rfl⟩ | ⟨-, -, rfl⟩ | ⟨-, -, he⟩⟩ := step_cases h
    · exact absurd rfl changed
    · exact absurd rfl changed
    · exact exec_memory_writer (s := s.afterFetch) canonical he changed
  · rcases step_calls_cases h with same | ⟨r1, call, -⟩ | ⟨ret, -⟩
    · exact absurd same changed
    · exact .inl ⟨r1, call⟩
    · exact .inr ret

/-- Settles O44: the writes after the last one to a cell are to other cells, and a cell without one reads as it does in
the memory that nothing has written. -/
theorem everyLaunchHasTheInvariant : Obligations.EveryLaunchHasTheInvariant := by
  intro p regInit memInit admissible
  refine ⟨rfl, rfl, rfl, rfl, rfl, rfl, rfl, fun a inside => ⟨?_, fun unwritten => ?_⟩,
    State.Inv.launch admissible memInit⟩
  · rintro before v after rfl others
    calc Memory.read (Memory.ofWrites p.memSize (before ++ (a, v) :: after)) a
        = Memory.read (Memory.ofWrites p.memSize (before ++ [(a, v)])) a := by
          rw [← Memory.read_ofWrites_append p.memSize (before ++ [(a, v)]) others, List.append_assoc,
            List.singleton_append]
      _ = v := by rw [Memory.read_ofWrites_concat, if_pos ⟨rfl, inside⟩]
  · exact Memory.read_ofWrites_append p.memSize [] unwritten

/-- A step keeps a bottom part of the call stack that the stack does not get shorter than. -/
theorem step_keeps_callsBase {s t : State} {base : List Pc} (bottom : base <+: s.calls)
    (long : base.length ≤ t.calls.length) (h : step s = .next t) : base <+: t.calls := by
  rcases step_calls_cases h with same | ⟨_, -, push⟩ | ⟨-, v, pop⟩
  · rwa [same]
  · rw [push]; exact bottom.trans (List.prefix_append _ _)
  · exact List.prefix_of_prefix_length_le bottom (pop ▸ List.prefix_append _ _) long

/-- Settles O48, by induction on the run. -/
theorem callStackBelowIsUntouched : Obligations.CallStackBelowIsUntouched := by
  intro n
  induction n with
  | zero => rintro s t base bottom - rfl; exact bottom
  | succ n ih =>
    rintro s t base bottom long ⟨u, hu, run⟩
    have first : base <+: u.calls :=
      step_keeps_callsBase bottom (long 1 u (by omega) ⟨u, hu, rfl⟩) hu
    exact ih u t base first (fun k v hk hv => long (k + 1) v (by omega) ⟨u, hu, hv⟩) run

/-- Settles O51: neither the loop test nor the fetch reads the call stack, and no instruction but RET does when the stack
is unbounded. -/
theorem callStackIsHiddenExceptFromRet : Obligations.CallStackIsHiddenExceptFromRet := by
  intro s t other unbounded notRet h
  obtain ⟨config, ⟨ended, rfl⟩ | ⟨running, past, rfl⟩ | ⟨running, inside, he⟩⟩ := step_cases h
  · refine ⟨[], by simp, ?_⟩
    rw [List.append_nil]
    exact step_of_ended (s := { t with calls := other }) config ended
  · refine ⟨[], by simp, ?_⟩
    rw [List.append_nil]
    exact step_of_past_end (s := { s with calls := other }) config running past
  · obtain ⟨pushed, calls, same⟩ := exec_of_other_calls (s := s.afterFetch) other unbounded notRet he
    exact ⟨pushed, calls, (step_of_running (s := { s with calls := other }) config running inside).trans same⟩

/-- Settles O1: an in-range index is in the register file. -/
theorem registerReadIsSoftFail : Obligations.RegisterReadIsSoftFail := by
  intro s i
  refine ⟨fun inside => ?_, s.getReg_of_ge⟩
  have inFile : i.toNat < s.regs.length := inside
  rw [s.getReg_eq, List.getD_eq_getElem _ _ inFile, List.getElem?_eq_getElem inFile]

/-- Settles O2: a register write is a `List.set` of the register file. -/
theorem registerWriteIsSoftFail : Obligations.RegisterWriteIsSoftFail := by
  intro s i v
  refine ⟨fun inside => ⟨?_, fun k other => ?_, ?_⟩, fun outside => s.setReg_of_ge outside v⟩
  · rw [s.setReg_regs, List.getElem?_set_self inside]
  · rw [s.setReg_regs, List.getElem?_set_ne (Ne.symm other)]
  · rw [s.setReg_regs]; exact s.setReg_eq i v

/-- Settles O43: the reset state is the launch of this hardware with nothing written to its memory. -/
theorem resetHasTheInvariant : Obligations.ResetHasTheInvariant :=
  State.Inv.launch (p := defaultParams) (regInit := List.replicate defaultRegCount resetRegister) (by decide) []

/-- Settles O45: each is a field that `State.reset` writes; the sizes are those of `defaultParams` and the length of the
register file. -/
theorem resetStateHasTheStatedValues : Obligations.ResetStateHasTheStatedValues :=
  ⟨rfl, rfl, rfl, List.length_replicate, rfl, rfl⟩

end Sys2Proof.Machine
end

section
/-! The memory (20_memory.md): its soft-fail read and write, the operand and fetch addresses that reach it, and what a
step and a run leave of it. -/

namespace Sys2Proof.Machine

/-! ### Addresses as numbers -/

@[simp] theorem memOperand_toNat (field : Byte) : (memOperand field).toNat = field.toNat := by
  have := field.isLt
  rw [memOperand, BitVec.toNat_setWidth, Nat.mod_eq_of_lt (by omega)]

/-- The 16 bits of a fetch address lose nothing of a pc inside the memory (20_memory.md R35). -/
theorem State.fetchAddress_toNat {s : State} (config : s.configOk = true) (inside : s.pc.toNat < s.params.memSize) :
    (fetchAddress s.pc).toNat = s.pc.toNat := by
  obtain ⟨-, -, -, memLe, -⟩ := s.configOk_iff.mp config
  rw [fetchAddress, BitVec.toNat_setWidth, Nat.mod_eq_of_lt (by omega)]

/-! ### Reading and writing -/

theorem State.memRead_of_lt {s : State} {a : Addr} (inside : a.toNat < s.params.memSize) :
    s.memRead a = Memory.read s.mem a.toNat := by
  unfold memRead
  exact if_pos inside

/-- The canonical form has one representation per contents, so rewriting a cell gives back the same list. -/
theorem Memory.write_read_self {m : Memory} (canonical : Memory.wf m) (a : Nat) :
    Memory.write m a (Memory.read m a) = m := by
  refine Memory.ext_of_read (Memory.write_wf canonical _ _) canonical fun b => ?_
  rw [Memory.read_write canonical]
  split
  · rw [‹b = a›]
  · rfl

/-- The one memory serves fetches and stores: a fetch reads what was stored at the pc (20_memory.md R45). -/
theorem State.memWrite_fetchWord {s : State} (config : s.configOk = true) (canonical : Memory.wf s.mem)
    (inside : s.pc.toNat < s.params.memSize) {a : Addr} (atPc : a.toNat = s.pc.toNat) (v : Word) :
    (s.memWrite a v).fetchWord = v := by
  have sameAddress : fetchAddress s.pc = a :=
    BitVec.eq_of_toNat_eq ((fetchAddress_toNat config inside).trans atPc.symm)
  rw [fetchWord, memWrite_pc, sameAddress, s.memWrite_memRead canonical, if_pos ⟨rfl, atPc ▸ inside⟩]

/-! ### The canonical form along a run -/

/-- Of all instructions only ST writes the memory, through the write that keeps its canonical form. -/
theorem exec_keeps_mem_wf {i : Instr} {s t : State} (canonical : Memory.wf s.mem) (h : exec i s = .next t) :
    Memory.wf t.mem := by
  rcases exec_cases h with ⟨_, _, _, -, rfl⟩ | ⟨_, -, rfl⟩ | ⟨_, _, -, rfl⟩ | ⟨_, _, -, rfl⟩ | ⟨_, -, -, rfl⟩ |
    ⟨_, -, -, rfl⟩ | ⟨-, -, rfl⟩ | ⟨_, -, -, e⟩ | ⟨-, rfl⟩
  case inr.inr.inr.inl => exact s.memWrite_wf canonical _ _
  case inr.inr.inr.inr.inr.inr.inr.inl => rw [e]; exact canonical
  all_goals simpa using canonical

theorem step_keeps_mem_wf {s t : State} (canonical : Memory.wf s.mem) (h : step s = .next t) : Memory.wf t.mem := by
  obtain ⟨-, ⟨-, rfl⟩ | ⟨-, -, rfl⟩ | ⟨-, -, he⟩⟩ := step_cases h
  · exact canonical
  · exact canonical
  · exact exec_keeps_mem_wf (s := s.afterFetch) canonical he

/-- A step keeps a cell that no 8-bit operand field addresses (20_memory.md R36): the address of its writer would be
the zero-extended field `r1` of an ST. -/
theorem step_keeps_cell_above_255 {s t : State} (canonical : Memory.wf s.mem) (h : step s = .next t) {a : Addr}
    (above : 256 ≤ a.toNat) : t.memRead a = s.memRead a := by
  by_contra changed
  obtain ⟨-, memory_writer, -⟩ := onlyNamedInstructionsWriteStorage s t canonical h
  obtain ⟨r1, -, -, rfl⟩ := memory_writer a changed
  have := r1.isLt
  rw [memOperand_toNat] at above
  omega

/-! ### The statements -/

/-- Settles O47, by induction on the run: each step keeps the cell, and the canonical form that the next one needs. -/
theorem cellsAbove255AreNeverWritten : Obligations.CellsAbove255AreNeverWritten := by
  intro n s t canonical run a above
  have kept : Memory.wf t.mem ∧ t.memRead a = s.memRead a := by
    refine runsTo_induction (P := fun u => Memory.wf u.mem ∧ u.memRead a = s.memRead a) ?_ ⟨canonical, rfl⟩ run
    rintro u v ⟨uCanonical, uKept⟩ h
    exact ⟨step_keeps_mem_wf uCanonical h, (step_keeps_cell_above_255 uCanonical h above).trans uKept⟩
  exact kept.2

/-- Settles O4: a read after the write tells the written cell from the others. -/
theorem memoryWriteIsSoftFail : Obligations.MemoryWriteIsSoftFail := by
  intro s a v canonical
  refine ⟨fun inside => ⟨?_, fun n other => ?_, ?_⟩, fun outside => s.memWrite_of_ge outside v⟩
  · rw [s.memWrite_read canonical, if_pos ⟨rfl, inside⟩]
  · rw [s.memWrite_read canonical, if_neg fun both => other both.1]
  · rw [s.memWrite_mem]; exact s.memWrite_eq a v

/-- Settles O5: inside the memory by the canonical form, outside it because the write is dropped. -/
theorem rewritingACellChangesNothing : Obligations.RewritingACellChangesNothing := by
  intro s a canonical
  rcases Nat.lt_or_ge a.toNat s.params.memSize with inside | outside
  · rw [State.memRead_of_lt inside, s.memWrite_eq, if_pos inside, Memory.write_read_self canonical]
  · exact s.memWrite_of_ge outside _

/-- Settles O41: the ST writes to the pc at dispatch, which is where the next fetch reads. -/
theorem storeIntoTheNextWordIsExecuted : Obligations.StoreIntoTheNextWordIsExecuted := by
  intro s r1 r2 config canonical running inside store next nextInside
  have pcNext : s.afterFetch.pc.toNat = r1.toNat := (State.pc_succ_toNat config inside).trans next.symm
  have pcInside : s.afterFetch.pc.toNat < s.params.memSize := pcNext ▸ nextInside
  have fetched : (s.afterFetch.memWrite (memOperand r1) (s.getReg r2)).fetchWord = s.getReg r2 :=
    State.memWrite_fetchWord (s := s.afterFetch) config canonical pcInside (by rw [memOperand_toNat, pcNext]) _
  refine ⟨s.afterFetch.memWrite (memOperand r1) (s.getReg r2), ?_, fetched, ?_⟩
  · rw [step_of_running config running inside, store]
    rfl
  · rw [step_of_running (by simpa using config) (by simpa using running)
      (by rwa [State.memWrite_pc, State.memWrite_params]), fetched, State.memWrite_params, State.afterFetch_params]

/-- Settles O3: the two sides of the size. -/
theorem memoryReadIsSoftFail : Obligations.MemoryReadIsSoftFail :=
  fun s _ => ⟨State.memRead_of_lt, s.memRead_of_ge⟩

/-- Settles O31: the fetch is a memory read at the fetch address, which is the pc. -/
theorem fetchReadsTheCellAtThePc : Obligations.FetchReadsTheCellAtThePc := by
  intro s config inside
  have address := State.fetchAddress_toNat config inside
  refine ⟨address, ?_⟩
  rw [State.fetchWord, State.memRead_of_lt (by rwa [address]), address]

end Sys2Proof.Machine
end

section
/-! The encoding (30_encoding.md): the four bytes of a word, the decoder by mnemonic, and the encoder after it. -/

namespace Sys2Proof

/-! ### Words as four bytes -/

theorem packWord_inj {b x y z b' x' y' z' : Byte} (same : packWord b x y z = packWord b' x' y' z') :
    b = b' ∧ x = x' ∧ y = y' ∧ z = z' :=
  ⟨by simpa using congrArg opcodeField same, by simpa using congrArg r1Field same,
    by simpa using congrArg r2Field same, by simpa using congrArg r3Field same⟩

/-- A mask acts on each of the four bytes by itself. -/
theorem and_eq_packWord (w mask : Word) :
    w &&& mask = packWord (opcodeField w &&& opcodeField mask) (r1Field w &&& r1Field mask)
      (r2Field w &&& r2Field mask) (r3Field w &&& r3Field mask) := by
  have op : opcodeField (w &&& mask) = opcodeField w &&& opcodeField mask := BitVec.extractLsb'_and
  have r1 : r1Field (w &&& mask) = r1Field w &&& r1Field mask := BitVec.extractLsb'_and
  have r2 : r2Field (w &&& mask) = r2Field w &&& r2Field mask := BitVec.extractLsb'_and
  have r3 : r3Field (w &&& mask) = r3Field w &&& r3Field mask := BitVec.extractLsb'_and
  rw [← op, ← r1, ← r2, ← r3, packWord_fields]

/-- The bits of format RRR (30_encoding.md R49). -/
theorem and_opcode_r1_r2_r3 (w : Word) :
    w &&& 0xFFFFFFFF#32 = packWord (opcodeField w) (r1Field w) (r2Field w) (r3Field w) := by
  rw [packWord_fields]
  exact BitVec.and_allOnes

/-- The bits of formats RA and AR. -/
theorem and_opcode_r1_r2 (w : Word) :
    w &&& 0xFFFFFF00#32 = packWord (opcodeField w) (r1Field w) (r2Field w) 0 := by
  rw [and_eq_packWord]
  congr 1
  · exact BitVec.and_allOnes
  · exact BitVec.and_allOnes
  · exact BitVec.and_allOnes
  · exact BitVec.and_zero

/-- The bits of formats R and T. -/
theorem and_opcode_r1 (w : Word) : w &&& 0xFFFF0000#32 = packWord (opcodeField w) (r1Field w) 0 0 := by
  rw [and_eq_packWord]
  congr 1
  · exact BitVec.and_allOnes
  · exact BitVec.and_allOnes
  · exact BitVec.and_zero
  · exact BitVec.and_zero

/-- The bits of formats N and F. -/
theorem and_opcode (w : Word) : w &&& 0xFF000000#32 = packWord (opcodeField w) 0 0 0 := by
  rw [and_eq_packWord]
  congr 1
  · exact BitVec.and_allOnes
  · exact BitVec.and_zero
  · exact BitVec.and_zero
  · exact BitVec.and_zero

/-- Every format uses the opcode byte. -/
theorem opcodeField_and_usedBits (w : Word) (i : Instr) : opcodeField (w &&& usedBits i) = opcodeField w := by
  cases i
  case add => rw [usedBits, and_opcode_r1_r2_r3, opcodeField_packWord]
  case inc | call => rw [usedBits, and_opcode_r1, opcodeField_packWord]
  case ld | st => rw [usedBits, and_opcode_r1_r2, opcodeField_packWord]
  all_goals rw [usedBits, and_opcode, opcodeField_packWord]

/-! ### The instruction of a mnemonic -/

/-- The instruction of a mnemonic on three operand fields, of which it takes those its format uses
(30_encoding.md R49). What the decoder does with it is `decode_of_mnemonicOf`. -/
def Mnemonic.instr (m : Mnemonic) (r1 r2 r3 : Byte) : Instr :=
  match m with
  | .add => .add r1 r2 r3
  | .sub => .sub
  | .mul => .mul
  | .div => .div
  | .inc => .inc r1
  | .dec => .dec
  | .and => .and
  | .or => .or
  | .xor => .xor
  | .not => .not
  | .jmp => .jmp
  | .beq => .beq
  | .bne => .bne
  | .call => .call r1
  | .ret => .ret
  | .ld => .ld r1 r2
  | .st => .st r1 r2
  | .fft => .fft
  | .enc => .enc
  | .decrypt => .decrypt

/-- Every instruction is that of a mnemonic but for the catch-all row of the table. -/
theorem Instr.eq_unassigned_or_instr (i : Instr) :
    (∃ b, i = .unassigned b) ∨ ∃ (m : Mnemonic) (r1 r2 r3 : Byte), i = m.instr r1 r2 r3 :=
  match i with
  | .add r1 r2 r3 => .inr ⟨.add, r1, r2, r3, rfl⟩
  | .sub => .inr ⟨.sub, 0, 0, 0, rfl⟩
  | .mul => .inr ⟨.mul, 0, 0, 0, rfl⟩
  | .div => .inr ⟨.div, 0, 0, 0, rfl⟩
  | .inc r1 => .inr ⟨.inc, r1, 0, 0, rfl⟩
  | .dec => .inr ⟨.dec, 0, 0, 0, rfl⟩
  | .and => .inr ⟨.and, 0, 0, 0, rfl⟩
  | .or => .inr ⟨.or, 0, 0, 0, rfl⟩
  | .xor => .inr ⟨.xor, 0, 0, 0, rfl⟩
  | .not => .inr ⟨.not, 0, 0, 0, rfl⟩
  | .jmp => .inr ⟨.jmp, 0, 0, 0, rfl⟩
  | .beq => .inr ⟨.beq, 0, 0, 0, rfl⟩
  | .bne => .inr ⟨.bne, 0, 0, 0, rfl⟩
  | .call r1 => .inr ⟨.call, r1, 0, 0, rfl⟩
  | .ret => .inr ⟨.ret, 0, 0, 0, rfl⟩
  | .ld r1 r2 => .inr ⟨.ld, r1, r2, 0, rfl⟩
  | .st r1 r2 => .inr ⟨.st, r1, r2, 0, rfl⟩
  | .fft => .inr ⟨.fft, 0, 0, 0, rfl⟩
  | .enc => .inr ⟨.enc, 0, 0, 0, rfl⟩
  | .decrypt => .inr ⟨.decrypt, 0, 0, 0, rfl⟩
  | .unassigned b => .inl ⟨b, rfl⟩

theorem instr_wf (opc : OpcodeMap) (m : Mnemonic) (r1 r2 r3 : Byte) : (m.instr r1 r2 r3).wf opc = true := by
  cases m <;> rfl

/-- Which bits are used depends on the mnemonic alone. -/
theorem usedBits_instr_eq (m : Mnemonic) (r1 r2 r3 x y z : Byte) :
    usedBits (m.instr r1 r2 r3) = usedBits (m.instr x y z) := by
  cases m <;> rfl

theorem opcodeField_encode_instr (opc : OpcodeMap) (m : Mnemonic) (r1 r2 r3 : Byte) :
    opcodeField (encode opc (m.instr r1 r2 r3)) = opc.code m := by
  cases m <;> exact opcodeField_packWord _ _ _ _

/-- The canonical words of one mnemonic tell the operands it uses apart, whatever the opcode map. -/
theorem instr_eq_of_encode_eq {opc : OpcodeMap} {m : Mnemonic} {r1 r2 r3 x y z : Byte}
    (same : encode opc (m.instr r1 r2 r3) = encode opc (m.instr x y z)) : m.instr r1 r2 r3 = m.instr x y z := by
  cases m
  case add => obtain ⟨-, rfl, rfl, rfl⟩ := packWord_inj same; rfl
  case inc | call => obtain ⟨-, rfl, -⟩ := packWord_inj same; rfl
  case ld | st => obtain ⟨-, rfl, rfl, -⟩ := packWord_inj same; rfl
  all_goals rfl

/-- The canonical word of a mnemonic on a word's own fields is the word's used bits (30_encoding.md R55). -/
theorem encode_instr_fields {opc : OpcodeMap} {m : Mnemonic} {w : Word} (code : opc.code m = opcodeField w) :
    encode opc (m.instr (r1Field w) (r2Field w) (r3Field w)) =
      w &&& usedBits (m.instr (r1Field w) (r2Field w) (r3Field w)) := by
  cases m
  case add => rw [Mnemonic.instr, usedBits, and_opcode_r1_r2_r3, ← code]; rfl
  case inc | call => rw [Mnemonic.instr, usedBits, and_opcode_r1, ← code]; rfl
  case ld | st => rw [Mnemonic.instr, usedBits, and_opcode_r1_r2, ← code]; rfl
  all_goals rw [Mnemonic.instr, usedBits, and_opcode, ← code]; rfl

/-! ### The decoder by mnemonic -/

theorem decode_of_mnemonicOf {opc : OpcodeMap} {w : Word} {m : Mnemonic}
    (found : mnemonicOf opc (opcodeField w) = some m) :
    decode opc w = m.instr (r1Field w) (r2Field w) (r3Field w) := by
  rw [decode, found]
  cases m <;> rfl

theorem decode_of_not_code {opc : OpcodeMap} {w : Word} (notCode : opcodeField w ∉ opc.codes) :
    decode opc w = .unassigned (opcodeField w) := by
  rw [decode, mnemonicOf_eq_none.mpr notCode]

/-- Under distinct codes each code picks its own mnemonic (30_encoding.md R53). -/
theorem decode_of_code {opc : OpcodeMap} (distinct : opc.codes.Nodup) {w : Word} (m : Mnemonic)
    (code : opcodeField w = opc.code m) : decode opc w = m.instr (r1Field w) (r2Field w) (r3Field w) :=
  decode_of_mnemonicOf (code ▸ mnemonicOf_code distinct m)

theorem decode_encode_instr {opc : OpcodeMap} (distinct : opc.codes.Nodup) (m : Mnemonic) (r1 r2 r3 : Byte) :
    decode opc (encode opc (m.instr r1 r2 r3)) = m.instr r1 r2 r3 := by
  rw [decode_of_code distinct m (opcodeField_encode_instr opc m r1 r2 r3)]
  cases m
  case add | inc | call | ld | st => simp [Mnemonic.instr, encode]
  all_goals rfl

theorem decode_wf (opc : OpcodeMap) (w : Word) : (decode opc w).wf opc = true := by
  cases found : mnemonicOf opc (opcodeField w) with
  | none =>
    have notCode := mnemonicOf_eq_none.mp found
    rw [decode_of_not_code notCode]
    simpa [Instr.wf] using notCode
  | some m => rw [decode_of_mnemonicOf found]; exact instr_wf opc m _ _ _

theorem encode_decode (opc : OpcodeMap) (w : Word) : encode opc (decode opc w) = w &&& usedBits (decode opc w) := by
  cases found : mnemonicOf opc (opcodeField w) with
  | none =>
    rw [decode_of_not_code (mnemonicOf_eq_none.mp found)]
    exact (and_opcode w).symm
  | some m =>
    rw [decode_of_mnemonicOf found]
    exact encode_instr_fields (code_of_mnemonicOf found)

/-! ### The statements -/

/-- Settles O13: the encoded word's opcode byte finds the instruction's own mnemonic, or none for a byte that is no
code, and its fields are the operands. -/
theorem decodeInvertsEncode : Obligations.DecodeInvertsEncode := by
  intro opc i admissible wf
  obtain ⟨distinct, -, -⟩ := opc.admissible_iff.mp admissible
  obtain ⟨b, rfl⟩ | ⟨m, r1, r2, r3, rfl⟩ := i.eq_unassigned_or_instr
  · have byte : opcodeField (encode opc (.unassigned b)) = b := opcodeField_packWord b 0 0 0
    have notCode : b ∉ opc.codes := by simpa [Instr.wf] using wf
    rw [decode_of_not_code (byte.symm ▸ notCode), byte]
  · exact decode_encode_instr distinct m r1 r2 r3

/-- Settles O10: one mnemonic per code, none for every other byte. -/
theorem opcodeByteSelectsTheInstruction : Obligations.OpcodeByteSelectsTheInstruction := by
  intro opc w admissible
  obtain ⟨distinct, -, -⟩ := opc.admissible_iff.mp admissible
  have select := decode_of_code distinct (w := w)
  exact ⟨select .add, select .inc, select .st, select .call, select .ret, select .ld, select .sub, select .mul,
    select .div, select .dec, select .and, select .or, select .xor, select .not, select .jmp, select .beq,
    select .bne, select .fft, select .enc, select .decrypt, decode_of_not_code⟩

/-- Settles O11: an admissible map gives neither byte to a mnemonic. -/
theorem zeroAndAllOnesAreUnassigned : Obligations.ZeroAndAllOnesAreUnassigned := by
  intro opc w admissible
  obtain ⟨-, no00, noFF⟩ := opc.admissible_iff.mp admissible
  refine ⟨fun byte => ?_, fun byte => ?_⟩
  · rw [decode_of_not_code (byte ▸ no00), byte]
  · rw [decode_of_not_code (byte ▸ noFF), byte]

/-- Settles O12: the opcode byte is among the used bits, so both words find the same mnemonic; their canonical words,
the used bits, are then equal, and those tell the used operands apart. -/
theorem unusedFieldsDoNotChangeTheDecoding : Obligations.UnusedFieldsDoNotChangeTheDecoding := by
  intro opc w v agree
  have byte : opcodeField v = opcodeField w := by
    rw [← opcodeField_and_usedBits v (decode opc w), ← agree, opcodeField_and_usedBits]
  cases found : mnemonicOf opc (opcodeField w) with
  | none =>
    have notCode := mnemonicOf_eq_none.mp found
    rw [decode_of_not_code notCode, decode_of_not_code (byte ▸ notCode), byte]
  | some m =>
    have decodeW := decode_of_mnemonicOf found
    have decodeV := decode_of_mnemonicOf (byte ▸ found)
    have sameMask : usedBits (decode opc v) = usedBits (decode opc w) := by
      rw [decodeV, decodeW]
      exact usedBits_instr_eq m _ _ _ _ _ _
    have sameWord : encode opc (decode opc v) = encode opc (decode opc w) := by
      rw [encode_decode, encode_decode, sameMask, agree]
    rw [decodeV, decodeW] at sameWord ⊢
    exact instr_eq_of_encode_eq sameWord

/-- Settles O14: `encode_decode` for the word, `decode_wf` for the instruction. -/
theorem encodeOfDecodeIsTheCanonicalWord : Obligations.EncodeOfDecodeIsTheCanonicalWord :=
  fun opc w => ⟨encode_decode opc w, decode_wf opc w⟩

/-- Settles O15: only the second part needs the distinct codes of an admissible map. -/
theorem decodedInstructionKeepsItsOpcodeByte : Obligations.DecodedInstructionKeepsItsOpcodeByte := by
  intro opc w admissible
  obtain ⟨distinct, -, -⟩ := opc.admissible_iff.mp admissible
  exact ⟨opcodeByte_decode opc w, dispatched_decode_iff distinct w⟩

/-- Settles O9: nothing of a 32-bit word stands above the opcode byte. -/
theorem fieldsAreTheFourBytes : Obligations.FieldsAreTheFourBytes := by
  intro w
  have opcode : (opcodeField w).toNat = w.toNat / 2 ^ 24 := by
    have := w.isLt
    rw [opcodeField_toNat]
    omega
  exact ⟨opcode, r1Field_toNat w, r2Field_toNat w, r3Field_toNat w, (packWord_fields w).symm⟩

end Sys2Proof

namespace Sys2Proof.Machine

/-! ### The idioms -/

theorem exec_inc_of_ge {s : State} {r1 : Byte} (outside : s.regCount ≤ r1.toNat) : exec (.inc r1) s = .next s :=
  congrArg Host.Outcome.next (s.setReg_of_ge outside _)

/-- ADD into a register of the file leaves the wrapped sum of the old sources there (42_arith.md R83). -/
theorem exec_add_getReg {s : State} {r1 : Byte} (inside : r1.toNat < s.regCount) (r2 r3 : Byte) :
    ∃ t, exec (.add r1 r2 r3) s = .next t ∧ t.getReg r1 = s.getReg r2 + s.getReg r3 :=
  ⟨_, rfl, by rw [s.setReg_getReg, if_pos ⟨rfl, inside⟩, aluAdd_eq]⟩

/-- Settles O29: an out-of-range register reads 0 and drops the write, and 0 is neutral for the sum. -/
theorem idiomsDoWhatTheyAreUsedFor : Obligations.IdiomsDoWhatTheyAreUsedFor := by
  intro s d r o outside inside
  have zero : s.getReg o = 0#32 := s.getReg_of_ge outside
  refine ⟨exec_ret_of_empty, exec_inc_of_ge outside, ?_, ?_⟩
  · obtain ⟨t, run, sum⟩ := exec_add_getReg inside r o
    exact ⟨t, run, by rw [sum, zero, BitVec.add_zero]⟩
  · obtain ⟨t, run, sum⟩ := exec_add_getReg inside o o
    exact ⟨t, run, by rw [sum, zero, BitVec.add_zero]⟩

end Sys2Proof.Machine
end

section
/-! The arithmetic-logic unit as numbers (40_alu.md R63 to R68). `Laws/Alu.lean` identifies the functions of the unit
with the operations of the fixed-width type; here each is read as a natural number, and the obligations O6, O7 and O8
are put together from these readings. -/

namespace Sys2Proof.Machine

/-! ### Addition, subtraction, multiplication -/

theorem aluAdd_toNat (a b : Word) : (aluAdd a b).toNat = (a.toNat + b.toNat) % 2 ^ 32 := by
  rw [aluAdd_eq, BitVec.toNat_add]

theorem aluMul_toNat (a b : Word) : (aluMul a b).toNat = (a.toNat * b.toNat) % 2 ^ 32 := by
  rw [aluMul_eq, BitVec.toNat_mul]

theorem aluSub_toNat_of_le {a b : Word} (noBorrow : b.toNat ≤ a.toNat) :
    (aluSub a b).toNat = a.toNat - b.toNat := by
  rw [aluSub_eq, BitVec.toNat_sub_of_le (BitVec.le_def.mpr noBorrow)]

theorem aluSub_toNat_of_lt {a b : Word} (borrow : a.toNat < b.toNat) :
    (aluSub a b).toNat = 2 ^ 32 - (b.toNat - a.toNat) := by
  rw [aluSub_eq, BitVec.toNat_sub_of_lt (BitVec.lt_def.mpr borrow)]

/-- Settles O6: after a borrow, the difference wrapped by `2 ^ 32` gives the first operand back. -/
theorem aluAddSubMulWrap : Obligations.AluAddSubMulWrap := by
  intro a b
  refine ⟨aluAdd_toNat a b, aluSub_toNat_of_le, fun borrow => ?_, aluMul_toNat a b⟩
  have := b.isLt
  rw [aluSub_toNat_of_lt borrow]
  omega

/-! ### Division -/

/-- A floor of 32-bit operands is below `2 ^ 32`, so its reduction to 32 bits loses nothing. -/
theorem aluDiv_toNat {a b : Word} (nonzero : b ≠ 0#32) : (aluDiv a b).toNat = a.toNat / b.toNat := by
  have fits : a.toNat / b.toNat < 2 ^ 32 := (Nat.div_le_self _ _).trans_lt a.isLt
  rw [aluDiv, if_neg nonzero, BitVec.toNat_ofNat, Nat.mod_eq_of_lt fits]

/-- Settles O7. -/
theorem aluDivTruncatesAndDividesByZeroToZero : Obligations.AluDivTruncatesAndDividesByZeroToZero :=
  fun a _ => ⟨aluDiv_toNat, fun zero => zero ▸ aluDiv_zero a⟩

/-! ### Increment and decrement -/

theorem aluInc_eq_aluAdd (a : Word) : aluInc a = aluAdd a 1#32 := by rw [aluInc_eq, aluAdd_eq]

theorem aluDec_eq_aluSub (a : Word) : aluDec a = aluSub a 1#32 := by rw [aluDec_eq, aluSub_eq]

theorem aluDec_aluInc (a : Word) : aluDec (aluInc a) = a := by
  rw [aluDec_eq, aluInc_eq, BitVec.add_sub_cancel]

theorem aluInc_aluDec (a : Word) : aluInc (aluDec a) = a := by
  rw [aluInc_eq, aluDec_eq, BitVec.sub_add_cancel]

/-- Settles O8: each number is that of the addition or subtraction of 1. -/
theorem aluIncDecWrapAndInvert : Obligations.AluIncDecWrapAndInvert := by
  intro a
  have incNumber : (aluInc a).toNat = (a.toNat + 1) % 2 ^ 32 := by
    rw [aluInc_eq_aluAdd, aluAdd_toNat, BitVec.toNat_one (by decide)]
  have decNumber (positive : 1 ≤ a.toNat) : (aluDec a).toNat = a.toNat - 1 := by
    rw [aluDec_eq_aluSub]
    exact aluSub_toNat_of_le positive
  have decZero : aluDec 0#32 = 0xFFFFFFFF#32 := by decide
  exact ⟨incNumber, aluInc_eq_aluAdd a, decNumber, fun zero => zero ▸ decZero, aluDec_eq_aluSub a,
    aluDec_aluInc a, aluInc_aluDec a⟩

end Sys2Proof.Machine
end

section
/-! The fetch-decode-execute step and the run loop (41_cycle.md): what a step runs, how a run comes to its normal end, and
what a step does with the trace. -/

namespace Sys2Proof.Machine

/-! ### What an instruction does with the status and with the trace -/

/-- An instruction keeps the status or takes the fatal fault: the normal end is the loop test's alone (41_cycle.md R80). -/
theorem exec_status_cases {i : Instr} {s t : State} (h : exec i s = .next t) :
    t.status = s.status ∨ ∃ b, t.status = .faulted b := by
  rcases exec_cases h with ⟨_, _, _, -, rfl⟩ | ⟨_, -, rfl⟩ | ⟨_, _, -, rfl⟩ | ⟨_, _, -, rfl⟩ | ⟨_, -, -, rfl⟩ |
    ⟨_, -, -, rfl⟩ | ⟨-, -, rfl⟩ | ⟨_, -, -, e⟩ | ⟨-, rfl⟩
  case inr.inr.inr.inr.inr.inl => exact .inr ⟨_, rfl⟩
  case inr.inr.inr.inr.inr.inr.inr.inl => rw [e]; exact .inl rfl
  case inr.inr.inr.inr.inr.inr.inr.inr => exact .inr ⟨_, rfl⟩
  all_goals simp

/-- No instruction reads the trace: after any other trace it does the same (41_cycle.md R82). -/
theorem exec_of_other_trace {i : Instr} {s t : State} (other : List TraceRecord) (h : exec i s = .next t) :
    exec i { s with trace := other } = .next { t with trace := other } := by
  rcases exec_cases h with ⟨_, _, _, rfl, rfl⟩ | ⟨_, rfl, rfl⟩ | ⟨_, _, rfl, rfl⟩ | ⟨_, _, rfl, rfl⟩ |
    ⟨r1, rfl, room, rfl⟩ | ⟨r1, rfl, full, rfl⟩ | ⟨rfl, empty, rfl⟩ | ⟨v, rfl, pop, e⟩ | ⟨undispatched, rfl⟩
  case inr.inr.inr.inl => simp only [exec, execSt, State.memWrite_eq]; rfl
  case inr.inr.inr.inr.inl => exact exec_call_of_room (s := { s with trace := other }) room r1
  case inr.inr.inr.inr.inr.inl => exact exec_call_of_full (s := { s with trace := other }) full r1
  case inr.inr.inr.inr.inr.inr.inl => exact exec_ret_of_empty empty
  case inr.inr.inr.inr.inr.inr.inr.inl =>
    rw [e]; exact exec_ret_of_concat (s := { s with trace := other }) pop
  case inr.inr.inr.inr.inr.inr.inr.inr => exact exec_of_not_dispatched undispatched _
  all_goals simp only [exec, execAdd, execInc, execLd, State.setReg_eq]; rfl

/-! ### The statements -/

/-- Settles O34: the loop test gives the one direction; for the other, a step inside the memory is an instruction, which
leaves the status running or faulted. -/
theorem runEndsNormallyExactlyPastTheMemory : Obligations.RunEndsNormallyExactlyPastTheMemory := by
  intro s config running
  refine ⟨step_of_past_end config running, fun t h halted => ?_⟩
  by_contra inside
  rw [step_of_running config running (Nat.lt_of_not_le inside)] at h
  rcases exec_status_cases h with same | ⟨b, faulted⟩
  · rw [same, State.afterFetch_status, running] at halted; cases halted
  · rw [faulted] at halted; cases halted

/-- Settles O52: an ended run and the normal end emit nothing, and an instruction keeps the trace of its dispatch, which
the fetch has lengthened by one record. -/
theorem traceIsWrittenAndNeverRead : Obligations.TraceIsWrittenAndNeverRead := by
  intro s t other h
  obtain ⟨config, ⟨ended, rfl⟩ | ⟨running, past, rfl⟩ | ⟨running, inside, he⟩⟩ := step_cases h
  · refine ⟨[], by simp, fun running => absurd running ended, fun _ => rfl, ?_⟩
    rw [List.append_nil]
    exact step_of_ended (s := { t with trace := other }) config ended
  · refine ⟨[], by simp, fun _ inside => absurd past (Nat.not_le.mpr inside), fun _ => rfl, ?_⟩
    rw [List.append_nil]
    exact step_of_past_end (s := { s with trace := other }) config running past
  · obtain ⟨-, -, kept⟩ := exec_keeps he
    have same := exec_of_other_trace (other ++ [⟨s.fetchWord, opcodeField s.fetchWord⟩]) he
    refine ⟨[⟨s.fetchWord, opcodeField s.fetchWord⟩], kept, fun _ _ => rfl, fun noFetch => ?_, ?_⟩
    · rcases noFetch with ended | past
      · exact absurd running ended
      · exact absurd past (Nat.not_le.mpr inside)
    · exact (step_of_running (s := { s with trace := other }) config running inside).trans same

/-- Settles O30: the stated state is the one at dispatch. That the instruction is well formed is not needed, since every
decoded one is (`decode_wf`). -/
theorem stepRunsTheDecodedInstruction : Obligations.StepRunsTheDecodedInstruction := by
  rintro s i config running inside rfl -
  exact step_of_running config running inside

end Sys2Proof.Machine
end

section
/-! The arithmetic instructions (42_arith.md): ADD and INC are one register write each; SUB, MUL, DIV and DEC are not
dispatched. -/

namespace Sys2Proof

/-- Under an admissible map each code picks its own mnemonic (30_encoding.md R52, R53). -/
theorem decode_of_admissible {opc : OpcodeMap} (admissible : opc.admissible = true) {w : Word} (m : Mnemonic)
    (code : opcodeField w = opc.code m) : decode opc w = m.instr (r1Field w) (r2Field w) (r3Field w) := by
  obtain ⟨distinct, -, -⟩ := opc.admissible_iff.mp admissible
  exact decode_of_code distinct m code

end Sys2Proof

namespace Sys2Proof.Machine

/-! ### A register write, and the two instructions that are one -/

theorem State.setReg_getReg_self {s : State} {i : Byte} (inside : i.toNat < s.regCount) (v : Word) :
    (s.setReg i v).getReg i = v := by
  rw [s.setReg_getReg, if_pos ⟨rfl, inside⟩]

theorem State.setReg_getReg_ne {s : State} {i j : Byte} (other : j ≠ i) (v : Word) :
    (s.setReg i v).getReg j = s.getReg j :=
  not_imp_comm.mp eq_of_setReg_getReg_ne other

/-- What a register write leaves unchanged: everything when the index is out of range, else all but the register it
names (10_state.md R16). -/
theorem State.setReg_frame (s : State) (i : Byte) (v : Word) :
    (s.regCount ≤ i.toNat → s.setReg i v = s) ∧
    (∀ j, j ≠ i → (s.setReg i v).getReg j = s.getReg j) ∧
    (s.setReg i v).regCount = s.regCount ∧ s.setReg i v = { s with regs := (s.setReg i v).regs } ∧
    ∀ a, (s.setReg i v).memRead a = s.memRead a := by
  refine ⟨fun outside => s.setReg_of_ge outside v, fun j other => setReg_getReg_ne other v, s.setReg_regCount i v, ?_,
    s.setReg_memRead i v⟩
  rw [s.setReg_regs]
  exact s.setReg_eq i v

theorem exec_add (r1 r2 r3 : Byte) (s : State) :
    exec (.add r1 r2 r3) s = .next (s.setReg r1 (aluAdd (s.getReg r2) (s.getReg r3))) := rfl

theorem exec_inc (r1 : Byte) (s : State) : exec (.inc r1) s = .next (s.setReg r1 (aluInc (s.getReg r1))) := rfl

theorem aluInc_toNat (a : Word) : (aluInc a).toNat = (a.toNat + 1) % 2 ^ 32 := by
  obtain ⟨incNumber, -⟩ := aluIncDecWrapAndInvert a
  exact incNumber

/-! ### The statements -/

/-- Settles O17: the written value is computed from the sources of the old state, so it does not matter whether the
destination is one of them. -/
theorem addWritesTheWrappedSum : Obligations.AddWritesTheWrappedSum := by
  refine ⟨fun opc w admissible => decode_of_admissible admissible .add, fun r1 r2 r3 s => ?_⟩
  refine ⟨_, exec_add r1 r2 r3 s, fun inside => ?_, s.setReg_frame r1 _⟩
  rw [State.setReg_getReg_self inside, aluAdd_toNat]

/-- Settles O18: the written register is also the one source. -/
theorem incWritesTheWrappedSuccessor : Obligations.IncWritesTheWrappedSuccessor := by
  refine ⟨fun opc w admissible => decode_of_admissible admissible .inc, fun r1 s => ?_⟩
  refine ⟨_, exec_inc r1 s, fun inside => ?_, s.setReg_frame r1 _⟩
  rw [State.setReg_getReg_self inside, aluInc_toNat]

/-- Settles O24: none of the four is dispatched, and the opcode byte of each is its own code. -/
theorem undispatchedArithmeticFaults : Obligations.UndispatchedArithmeticFaults := by
  refine ⟨fun opc w admissible => ?_, fun s => ?_⟩
  · have select := decode_of_admissible admissible (w := w)
    exact ⟨select .sub, select .mul, select .div, select .dec⟩
  · have fault {i : Instr} (undispatched : i.dispatched = false) := exec_of_not_dispatched undispatched s
    exact ⟨fault (i := .sub) rfl, fault (i := .mul) rfl, fault (i := .div) rfl, fault (i := .dec) rfl⟩

end Sys2Proof.Machine
end

section
/-! The logic instructions (43_logic.md): the source decodes AND, OR, XOR and NOT but dispatches none of them. -/

namespace Sys2Proof.Machine

/-! ### The statement -/

/-- Settles O25: under an admissible map each code picks its own mnemonic, and an instruction that is not dispatched
takes the fault with the byte it was decoded from. -/
theorem logicInstructionsFault : Obligations.LogicInstructionsFault := by
  constructor
  · intro opc w admissible
    exact ⟨decode_of_admissible admissible .and, decode_of_admissible admissible .or,
      decode_of_admissible admissible .xor, decode_of_admissible admissible .not⟩
  · intro s
    exact ⟨exec_of_not_dispatched (i := .and) rfl s, exec_of_not_dispatched (i := .or) rfl s,
      exec_of_not_dispatched (i := .xor) rfl s, exec_of_not_dispatched (i := .not) rfl s⟩

end Sys2Proof.Machine
end

section
/-! The control-transfer instructions (44_control.md): CALL and RET pair last-in-first-out; JMP, BEQ and BNE are not
dispatched. -/

namespace Sys2Proof.Machine

/-! ### CALL and RET as whole steps -/

theorem step_call_of_room {s : State} {r1 : Byte} (config : s.configOk = true) (running : s.status = .running)
    (inside : s.pc.toNat < s.params.memSize) (call : decode s.params.opc s.fetchWord = .call r1)
    (room : s.stackFull = false) :
    step s = .next ((s.afterFetch.pushCall (s.pc + 1#32)).setPc (targetOperand r1)) := by
  rw [step_of_running config running inside, call, exec_call_of_room (by rwa [State.afterFetch_stackFull]),
    State.afterFetch_pc]

theorem step_ret_of_concat {s : State} {rest : List Pc} {v : Pc} (config : s.configOk = true)
    (running : s.status = .running) (inside : s.pc.toNat < s.params.memSize)
    (ret : decode s.params.opc s.fetchWord = .ret) (top : s.calls = rest ++ [v]) :
    step s = .next { s.afterFetch with calls := rest, pc := v } := by
  rw [step_of_running config running inside, ret, exec_ret_of_concat (by rwa [State.afterFetch_calls])]

/-! ### Along a run -/

/-- An admissible instance stays one: its sizes are constants (70_reset_and_hazards.md R124). -/
theorem runsTo_keeps_configOk {n : Nat} {s t : State} (config : s.configOk = true) (run : RunsTo n s t) :
    t.configOk = true := by
  refine runsTo_induction (P := fun u => u.configOk = true) (fun u v uConfig h => ?_) config run
  rw [configOk_of_eq (step_keeps_params h), uConfig]

/-- When no step of a run leaves fewer entries than it began with, and its end has no more, the call stack is the one
it began with. -/
theorem runsTo_calls_eq {n : Nat} {s t : State} (run : RunsTo n s t)
    (long : ∀ k u, k ≤ n → RunsTo k s u → s.calls.length ≤ u.calls.length)
    (same : t.calls.length = s.calls.length) : t.calls = s.calls := by
  have bottom : s.calls <+: t.calls := callStackBelowIsUntouched n s t s.calls List.prefix_rfl long run
  exact (bottom.eq_of_length same.symm).symm

/-! ### The statements -/

/-- Settles O49: the entry of the CALL is untouched while it is not popped, so it is what the RET finds on top. -/
theorem returnResumesAfterItsCall : Obligations.ReturnResumesAfterItsCall := by
  intro s c u r1 n running inside call room called unpopped run uRunning uInside ret depth
  have config : s.configOk = true := (step_cases called).1
  have pushed : c.calls = s.calls ++ [s.pc + 1#32] := by
    rw [step_call_of_room config running inside call room] at called
    cases called
    rfl
  have cConfig : c.configOk = true := (configOk_of_eq (step_keeps_params called)).trans config
  have pushedLength : c.calls.length = s.calls.length + 1 := by simp [pushed]
  have top : u.calls = s.calls ++ [s.pc + 1#32] := by
    refine (runsTo_calls_eq run (fun k v hk hv => ?_) (depth.trans pushedLength.symm)).trans pushed
    rw [pushedLength]
    exact unpopped k v hk hv
  exact ⟨_, step_ret_of_concat (runsTo_keeps_configOk cConfig run) uRunning uInside ret top,
    State.pc_succ_toNat config inside, rfl, rfl, rfl⟩

/-- Settles O21: both alternatives say that no finite capacity is reached, and the next state is then known. -/
theorem callPushesAndJumps : Obligations.CallPushesAndJumps := by
  refine ⟨fun opc w admissible => decode_of_admissible admissible .call, fun r1 s roomy => ?_⟩
  have room : s.stackFull = false := by
    rcases roomy with unbounded | ⟨n, finite, below⟩
    · exact State.stackFull_of_unbounded unbounded
    · refine s.stackFull_eq_false_iff.mpr fun m capacity => ?_
      obtain rfl : n = m := Option.some.inj (finite.symm.trans capacity)
      exact below
  exact ⟨_, exec_call_of_room room r1, rfl, targetOperand_toNat r1, rfl, fun _ => rfl, fun _ => rfl⟩

/-- Settles O23: what RET does depends on the call stack alone, empty or with a top entry. -/
theorem returnPopsOrDoesNothing : Obligations.ReturnPopsOrDoesNothing :=
  ⟨fun _ _ admissible => decode_of_admissible admissible .ret,
    fun _ => ⟨fun _ _ => exec_ret_of_concat, exec_ret_of_empty⟩⟩

/-- Settles O26: none of the three is dispatched, and the opcode byte of each is its own code. -/
theorem jumpAndBranchesFault : Obligations.JumpAndBranchesFault := by
  constructor
  · intro opc w admissible
    have select := decode_of_admissible admissible (w := w)
    exact ⟨select .jmp, select .beq, select .bne⟩
  · intro s
    have fault {i : Instr} (undispatched : i.dispatched = false) := exec_of_not_dispatched undispatched s
    exact ⟨fault (i := .jmp) rfl, fault (i := .beq) rfl, fault (i := .bne) rfl⟩

end Sys2Proof.Machine
end

section
/-! The load and the store (45_loadstore.md): LD is one register write, of a memory read; ST is one memory write, of a
register read. -/

namespace Sys2Proof.Machine

theorem exec_ld (r1 r2 : Byte) (s : State) :
    exec (.ld r1 r2) s = .next (s.setReg r1 (s.memRead (memOperand r2))) := rfl

theorem exec_st (r1 r2 : Byte) (s : State) :
    exec (.st r1 r2) s = .next (s.memWrite (memOperand r1) (s.getReg r2)) := rfl

/-! ### A memory read at an operand field -/

/-- The address of an operand field inside the memory is the field itself (45_loadstore.md R102). -/
theorem State.memRead_memOperand_of_lt {s : State} {field : Byte} (inside : field.toNat < s.params.memSize) :
    s.memRead (memOperand field) = Memory.read s.mem field.toNat := by
  rw [memRead_of_lt (by rwa [memOperand_toNat]), memOperand_toNat]

theorem State.memRead_memOperand_of_ge {s : State} {field : Byte} (outside : s.params.memSize ≤ field.toNat) :
    s.memRead (memOperand field) = 0#32 :=
  s.memRead_of_ge (by rwa [memOperand_toNat])

/-! ### A memory write -/

theorem State.memWrite_memRead_self {s : State} (canonical : Memory.wf s.mem) {a : Addr}
    (inside : a.toNat < s.params.memSize) (v : Word) : (s.memWrite a v).memRead a = v := by
  rw [s.memWrite_memRead canonical, if_pos ⟨rfl, inside⟩]

theorem State.memWrite_memRead_ne {s : State} (canonical : Memory.wf s.mem) {a b : Addr} (other : b ≠ a) (v : Word) :
    (s.memWrite a v).memRead b = s.memRead b :=
  not_imp_comm.mp (eq_of_memWrite_memRead_ne canonical) other

/-- The cell at every word address but the written one is as before, also where no 16-bit address reaches. -/
theorem State.memWrite_read_ne {s : State} (canonical : Memory.wf s.mem) {a : Addr} {n : Nat} (other : n ≠ a.toNat)
    (v : Word) : Memory.read (s.memWrite a v).mem n = Memory.read s.mem n := by
  rw [s.memWrite_read canonical, if_neg fun both => other both.1]

/-- What a memory write leaves unchanged: everything when the address is past the memory, else all but the memory
(20_memory.md R34). -/
theorem State.memWrite_frame (s : State) (a : Addr) (v : Word) :
    (s.params.memSize ≤ a.toNat → s.memWrite a v = s) ∧
    s.memWrite a v = { s with mem := (s.memWrite a v).mem } ∧
    ∀ i, (s.memWrite a v).getReg i = s.getReg i := by
  refine ⟨fun outside => s.memWrite_of_ge outside v, ?_, s.memWrite_getReg a v⟩
  rw [s.memWrite_mem]
  exact s.memWrite_eq a v

/-! ### The statements -/

/-- Settles O19: the two sides of the memory size are those of the memory read, the rest is the frame of the register
write. -/
theorem loadCopiesTheWholeCell : Obligations.LoadCopiesTheWholeCell := by
  refine ⟨fun opc w admissible => decode_of_admissible admissible .ld, fun r1 r2 s => ?_⟩
  refine ⟨_, exec_ld r1 r2 s, fun inFile inside => ?_, fun inFile outside => ?_, s.setReg_frame r1 _⟩
  · rw [State.setReg_getReg_self inFile, State.memRead_memOperand_of_lt inside]
  · rw [State.setReg_getReg_self inFile, State.memRead_memOperand_of_ge outside]

/-- Settles O20: the field and the address it is extended to are one number, so both are on the same side of the
memory size. -/
theorem storeWritesTheWholeCell : Obligations.StoreWritesTheWholeCell := by
  refine ⟨fun opc w admissible => decode_of_admissible admissible .st, fun r1 r2 s canonical => ?_⟩
  have address : (memOperand r1).toNat = r1.toNat := memOperand_toNat r1
  obtain ⟨dropped, memOnly, regs⟩ := s.memWrite_frame (memOperand r1) (s.getReg r2)
  refine ⟨address, _, exec_st r1 r2 s, fun inside => ?_, fun a other => ?_, fun n other => ?_, fun outside => ?_,
    memOnly, regs⟩
  · exact State.memWrite_memRead_self canonical (by rwa [address]) _
  · exact State.memWrite_memRead_ne canonical other _
  · exact State.memWrite_read_ne canonical other _
  · exact dropped (by rwa [address])

end Sys2Proof.Machine
end

section
/-! The accelerator instructions and the unassigned opcode bytes (46_accel_and_unassigned.md): none of them is
dispatched. -/

namespace Sys2Proof.Machine

/-! ### The statements -/

/-- Settles O27: the source has no unit for any of the three, so none is dispatched, and the opcode byte of each is its
own code. -/
theorem acceleratorInstructionsFault : Obligations.AcceleratorInstructionsFault := by
  constructor
  · intro opc w admissible
    have select := decode_of_admissible admissible (w := w)
    exact ⟨select .fft, select .enc, select .decrypt⟩
  · intro s
    have fault {i : Instr} (undispatched : i.dispatched = false) := exec_of_not_dispatched undispatched s
    exact ⟨fault (i := .fft) rfl, fault (i := .enc) rfl, fault (i := .decrypt) rfl⟩

/-- Settles O28: a byte that is no code finds no mnemonic, an admissible map gives none to 0x00 and 0xFF, and the
unassigned instruction carries the byte it faults with. -/
theorem unassignedByteFaults : Obligations.UnassignedByteFaults := by
  constructor
  · intro opc w admissible
    obtain ⟨-, no00, noFF⟩ := opc.admissible_iff.mp admissible
    exact ⟨decode_of_not_code, no00, noFF⟩
  · intro b s
    exact exec_of_not_dispatched (i := .unassigned b) rfl s

end Sys2Proof.Machine
end

section
/-! The exceptions (60_exceptions.md): the words and the full call stack that take the fatal fault, the state it leaves,
and that no step of an admissible instance is without a next state. -/

namespace Sys2Proof.Machine

/-! ### The full call stack -/

theorem State.stackFull_eq_true_iff (s : State) :
    s.stackFull = true ↔ ∃ n, s.params.stackDepth = some n ∧ n ≤ s.calls.length := by
  unfold stackFull
  cases s.params.stackDepth <;> simp

/-! ### How an instruction and a step come to fault -/

/-- The recorded byte is always the instruction's own, and the one dispatched instruction that can fault is a CALL
(60_exceptions.md R112, R122). -/
theorem exec_faulted_cases {i : Instr} {s t : State} {b : Byte} (h : exec i s = .next t) (running : s.status = .running)
    (faulted : t.status = .faulted b) :
    b = i.opcodeByte s.params.opc ∧ (i.dispatched = false ∨ (∃ r1, i = .call r1) ∧ s.stackFull = true) := by
  rcases exec_cases h with ⟨_, _, _, -, rfl⟩ | ⟨_, -, rfl⟩ | ⟨_, _, -, rfl⟩ | ⟨_, _, -, rfl⟩ | ⟨_, -, -, rfl⟩ |
    ⟨r1, rfl, full, rfl⟩ | ⟨-, -, rfl⟩ | ⟨_, -, -, e⟩ | ⟨undispatched, rfl⟩
  case inr.inr.inr.inr.inr.inl => cases faulted; exact ⟨rfl, .inr ⟨⟨r1, rfl⟩, full⟩⟩
  case inr.inr.inr.inr.inr.inr.inr.inl => rw [e, running] at faulted; cases faulted
  case inr.inr.inr.inr.inr.inr.inr.inr => cases faulted; exact ⟨rfl, .inl undispatched⟩
  all_goals simp [running] at faulted

/-- A fetched word whose opcode byte is none of the six dispatched codes takes the fatal fault with that byte. -/
theorem step_of_undispatched {s : State} (config : s.configOk = true) (running : s.status = .running)
    (inside : s.pc.toNat < s.params.memSize) (byte : opcodeField s.fetchWord ∉ s.params.opc.dispatchedCodes) :
    step s = .next (s.afterFetch.raiseFault (opcodeField s.fetchWord)) := by
  obtain ⟨-, -, -, -, -, distinct, -⟩ := s.configOk_iff.mp config
  have undispatched : (decode s.params.opc s.fetchWord).dispatched = false := by
    rwa [← dispatched_decode_iff distinct, Bool.not_eq_true] at byte
  rw [step_of_running config running inside, exec_of_not_dispatched undispatched, State.afterFetch_params,
    opcodeByte_decode]

/-! ### There is always a next state -/

theorem exec_answers (i : Instr) (s : State) : ∃ t, exec i s = .next t := by
  cases i
  case add | inc | ld | st => exact ⟨_, rfl⟩
  case call r1 =>
    cases full : s.stackFull with
    | true => exact ⟨_, exec_call_of_full full r1⟩
    | false => exact ⟨_, exec_call_of_room full r1⟩
  case ret =>
    rcases List.eq_nil_or_concat' s.calls with empty | ⟨rest, v, top⟩
    · exact ⟨_, exec_ret_of_empty empty⟩
    · exact ⟨_, exec_ret_of_concat top⟩
  all_goals exact ⟨_, exec_of_not_dispatched rfl s⟩

/-- With `step_of_not_configOk`: the parameters alone decide whether a step has a next state. -/
theorem step_answers {s : State} (config : s.configOk = true) : ∃ t, step s = .next t := by
  by_cases running : s.status = .running
  · rcases Nat.lt_or_ge s.pc.toNat s.params.memSize with inside | past
    · rw [step_of_running config running inside]
      exact exec_answers _ _
    · exact ⟨_, step_of_past_end config running past⟩
  · exact ⟨s, step_of_ended config running⟩

/-! ### The statements -/

/-- Settles O32: the fault changes only the status of the state at dispatch, and the run has then ended. -/
theorem faultingWordEndsTheRun : Obligations.FaultingWordEndsTheRun := by
  intro s config running inside byte
  refine ⟨_, step_of_undispatched config running inside byte, rfl, State.pc_succ_toNat config inside, rfl,
    fun n => ?_⟩
  have ended : (s.afterFetch.raiseFault (opcodeField s.fetchWord)).Ended := by simp [State.Ended]
  obtain ⟨-, stays⟩ := endedRunsExecuteNothing (s.afterFetch.raiseFault _) config ended n
  exact stays

/-- Settles O33: neither an ended run nor the loop test leads from running to faulted, and what the dispatched
instruction records is the fetched byte. -/
theorem onlyUndispatchedBytesAndFullStacksFault : Obligations.OnlyUndispatchedBytesAndFullStacksFault := by
  intro s t b running h faulted
  obtain ⟨config, ⟨ended, -⟩ | ⟨-, -, rfl⟩ | ⟨-, inside, he⟩⟩ := step_cases h
  · exact absurd running ended
  · cases faulted
  · obtain ⟨own, reason⟩ := exec_faulted_cases he running faulted
    rw [State.afterFetch_params] at own
    have fetched : b = opcodeField s.fetchWord := own.trans (opcodeByte_decode _ _)
    refine ⟨inside, fetched, reason.imp (fun undispatched => ?_) ?_⟩
    · obtain ⟨-, -, -, -, -, distinct, -⟩ := s.configOk_iff.mp config
      rw [fetched, ← dispatched_decode_iff distinct, undispatched]
      exact Bool.false_ne_true
    · rintro ⟨⟨r1, call⟩, full⟩
      rw [call] at own
      exact ⟨own, s.stackFull_eq_true_iff.mp full⟩

/-- Settles O36: the pc one past the last cell is the memory size, but the fault has come before the loop test. -/
theorem faultInTheLastCellIsNotANormalEnd : Obligations.FaultInTheLastCellIsNotANormalEnd := by
  intro s config running last byte
  obtain ⟨t, h, faulted, pc, -, stays⟩ := faultingWordEndsTheRun s config running (by omega) byte
  refine ⟨t, h, pc.trans last, fun n u run => ?_⟩
  rw [stays n u run, faulted]

/-- Settles O37, by induction on the number of steps: each has a next state, which is admissible again. -/
theorem everyRunGoesOn : Obligations.EveryRunGoesOn := by
  intro s config n
  induction n generalizing s with
  | zero => exact ⟨s, rfl⟩
  | succ n ih =>
    obtain ⟨u, hu⟩ := step_answers config
    obtain ⟨t, run⟩ := ih u ((configOk_of_eq (step_keeps_params hu)).trans config)
    exact ⟨t, u, hu, run⟩

/-- Settles O22: the two hypotheses say that the call stack is full. -/
theorem callOnAFullStackFaults : Obligations.CallOnAFullStackFaults :=
  fun r1 s n finite full => exec_call_of_full (s.stackFull_eq_true_iff.mpr ⟨n, finite, full⟩) r1

end Sys2Proof.Machine
end

section
/-! Reset, loading and hazards (70_reset_and_hazards.md): what is constant along a run, where a loop must pass, and the
word placed for the next fetch. -/

namespace Sys2Proof.Machine

/-- A run that has not ended had not ended before: the end of a run is for good (10_state.md R23). -/
theorem running_of_runsTo {n : Nat} {s t : State} (config : s.configOk = true) (run : RunsTo n s t)
    (running : t.status = .running) : s.status = .running := by
  by_contra ended
  obtain ⟨-, stays⟩ := endedRunsExecuteNothing s config ended n
  exact ended (stays t run ▸ running)

/-- Placing a word: it is stored at a pc inside the memory, the old one or 0, and the status becomes running. -/
theorem State.placeWord_eq {s : State} (config : s.configOk = true) (w : Word) :
    ∃ p : Pc, p.toNat < s.params.memSize ∧
      s.placeWord w = ((s.setStatus .running).setPc p).memWrite (fetchAddress p) w := by
  obtain ⟨-, -, memPos, -⟩ := s.configOk_iff.mp config
  refine ⟨if s.pc.toNat < s.params.memSize then s.pc else 0#32, ?_, rfl⟩
  split
  · assumption
  · exact memPos

/-- The step after placing a word fetches that word. -/
theorem step_placeWord {s : State} (config : s.configOk = true) (canonical : Memory.wf s.mem) (w : Word) :
    step (s.placeWord w) = exec (decode s.params.opc w) (s.placeWord w).afterFetch := by
  obtain ⟨p, inside, placed⟩ := State.placeWord_eq config w
  have address : (fetchAddress p).toNat = p.toNat :=
    State.fetchAddress_toNat (s := (s.setStatus .running).setPc p) config inside
  have fetched : (s.placeWord w).fetchWord = w := by
    rw [placed]
    exact State.memWrite_fetchWord (s := (s.setStatus .running).setPc p) config canonical inside address w
  have params : (s.placeWord w).params = s.params := by simp [placed]
  rw [step_of_running (by simpa [placed] using config) (by simp [placed]) (by simpa [placed] using inside), fetched,
    params]

/-! ### The statements -/

/-- Settles O46, by induction on the run. -/
theorem parametersNeverChange : Obligations.ParametersNeverChange := by
  intro n s t run
  refine runsTo_induction (P := fun u => u.params = s.params ∧ u.regCount = s.regCount) ?_ ⟨rfl, rfl⟩ run
  rintro u v ⟨uParams, uRegs⟩ h
  obtain ⟨params, regs⟩ := step_keeps_params h
  exact ⟨params.trans uParams, regs.trans uRegs⟩

/-- Settles O50, by induction on the run: as the run goes on, its first step is neither over an ended run nor the normal
end, so it is an instruction that leaves the pc one past itself. -/
theorem pcWalksUpWithoutCallAndRet : Obligations.PcWalksUpWithoutCallAndRet := by
  intro n
  induction n with
  | zero => rintro s t rfl - -; rfl
  | succ n ih =>
    rintro s t ⟨u, hu, run⟩ tRunning straight
    have config : s.configOk = true := (step_cases hu).1
    have uConfig : u.configOk = true := (configOk_of_eq (step_keeps_params hu)).trans config
    have running : s.status = .running := running_of_runsTo (n := n + 1) config ⟨u, hu, run⟩ tRunning
    have inside : s.pc.toNat < s.params.memSize := by
      by_contra past
      have uRunning := running_of_runsTo uConfig run tRunning
      rw [step_of_past_end config running (Nat.le_of_not_lt past)] at hu
      cases hu
      cases uRunning
    obtain ⟨noPop, noCall⟩ := straight 0 s (Nat.zero_lt_succ n) rfl
    obtain ⟨-, -, -, emptyRet, other, -⟩ := pcAfterEachInstruction s u running inside hu
    have first : u.pc.toNat = s.pc.toNat + 1 := by
      by_cases ret : decode s.params.opc s.fetchWord = .ret
      · exact emptyRet ret (noPop ret)
      · exact other noCall ret
    have rest : t.pc.toNat = u.pc.toNat + n :=
      ih u t run tRunning fun k v hk hv => straight (k + 1) v (Nat.succ_lt_succ hk) ⟨u, hu, hv⟩
    omega

/-- Settles O58: of the invariant the configuration and the canonical memory are needed. -/
theorem placedWordRunsNext : Obligations.PlacedWordRunsNext :=
  fun _ nbits w inv => step_placeWord inv.config inv.memCanonical (tableWord nbits w)

end Sys2Proof.Machine
end

section
/-! The host interface (70_reset_and_hazards.md R123 to R127, R134): what a transaction answers, idle and during a run, and
what the CORE does by itself. -/

namespace Sys2Proof.Machine

/-! ### What the host learns of the end of a run -/

theorem State.runEnd_of_running {s : State} (running : s.status = .running) : s.runEnd = none := by
  simp [runEnd, running]

theorem State.runEnd_of_halted {s : State} (halted : s.status = .halted) : s.runEnd = some .returned := by
  simp [runEnd, halted]

theorem State.runEnd_of_faulted {s : State} {b : Byte} (faulted : s.status = .faulted b) :
    s.runEnd = some (.signalled s.params.faultStatus b) := by
  simp [runEnd, faulted]

theorem State.exists_runEnd_of_ended {s : State} (ended : s.Ended) : ∃ e, s.runEnd = some e := by
  cases status : s.status with
  | running => exact absurd status ended
  | halted => exact ⟨_, runEnd_of_halted status⟩
  | faulted b => exact ⟨_, runEnd_of_faulted status⟩

/-! ### Transactions and ticks -/

namespace HostSession

variable {h : HostSession}

theorem whenIdle_of_idle (idle : h.inRun = false) (answer : HostSession × HostReply) :
    h.whenIdle answer = .next answer := by
  simp [whenIdle, idle]

theorem whenIdle_of_inRun (inRun : h.inRun = true) (answer : HostSession × HostReply) :
    h.whenIdle answer = .refused .hostAccessDuringRun := by
  simp [whenIdle, inRun]

theorem request_run_of_running (running : h.core.status = .running) :
    h.request .run = h.whenIdle (⟨h.core, true⟩, .started) := by
  simp [request, State.runEnd_of_running running]

theorem request_run_of_runEnd {e : RunEnd} (ended : h.core.runEnd = some e) :
    h.request .run = h.whenIdle (h, .ended e) := by
  simp [request, ended]

/-- With no run in progress the CORE waits (70_reset_and_hazards.md R123). -/
theorem tick_of_idle (idle : h.inRun = false) : h.tick = .next (h, none) := by
  simp [tick, idle]

/-- During a run a tick is a step, and the run is over when there is an end to tell. -/
theorem tick_of_step {s t : State} (answer : step s = .next t) :
    HostSession.tick ⟨s, true⟩ = .next (⟨t, t.runEnd.isNone⟩, t.runEnd) := by
  simp [tick, answer]

end HostSession

/-! ### The statements -/

/-- Settles O56: the tick answers the end that the status of the next state stands for, and the fault status is the one
the instance was constructed with, which is not 0. -/
theorem runReportsItsEnd : Obligations.RunReportsItsEnd := by
  intro h t idle running answer
  have tick := HostSession.tick_of_step answer
  refine ⟨?_, fun tRunning => ?_, fun halted => ?_, fun b faulted => ?_⟩
  · rw [HostSession.request_run_of_running running, HostSession.whenIdle_of_idle idle]
  · rw [tick, State.runEnd_of_running tRunning]
    rfl
  · rw [tick, State.runEnd_of_halted halted]
    rfl
  · have config : h.core.configOk = true := (step_cases answer).1
    obtain ⟨-, -, -, -, statusNe, -⟩ := h.core.configOk_iff.mp config
    obtain ⟨params, -⟩ := step_keeps_params answer
    refine ⟨h.core.params.faultStatus, statusNe, rfl, ?_⟩
    rw [tick, State.runEnd_of_faulted faulted, params]
    rfl

/-- Settles O55: an idle host's write and read are the machine's own, a read after a write. -/
theorem hostReadsWhatItWrote : Obligations.HostReadsWhatItWrote := by
  intro h a i v idle canonical
  refine ⟨⟨⟨h.core.memWrite a v, false⟩, HostSession.whenIdle_of_idle idle _, rfl, fun b => ?_⟩,
    ⟨⟨h.core.setReg i v, false⟩, HostSession.whenIdle_of_idle idle _, rfl, fun j => ?_⟩⟩
  · rw [← h.core.memWrite_memRead canonical]
    exact HostSession.whenIdle_of_idle rfl _
  · rw [← h.core.setReg_getReg]
    exact HostSession.whenIdle_of_idle rfl _

/-- Settles O53: a reset makes no case of the session, and cuts or fills the new registers to the old number. -/
theorem resetAlwaysAppliesAndWaits : Obligations.ResetAlwaysAppliesAndWaits := by
  intro h regInit memInit
  exact ⟨⟨h.core.hardReset regInit memInit, false⟩, rfl, rfl, rfl, rfl, rfl, List.takeD_length _ _ _,
    HostSession.tick_of_idle rfl⟩

/-- Settles O54: all five are allowed only when idle; the size query is not among them. -/
theorem hostAccessDuringARunIsRefused : Obligations.HostAccessDuringARunIsRefused := by
  intro h a i v inRun running
  have refused := HostSession.whenIdle_of_inRun inRun
  exact ⟨refused _, refused _, refused _, refused _, (HostSession.request_run_of_running running).trans (refused _), rfl⟩

/-- Settles O57: an ended core has an end to tell, whenever it is asked. -/
theorem runAgainExecutesNothing : Obligations.RunAgainExecutesNothing := by
  intro h idle ended
  obtain ⟨e, told⟩ := State.exists_runEnd_of_ended ended
  exact ⟨e, told, (HostSession.request_run_of_runEnd told).trans (HostSession.whenIdle_of_idle idle _),
    HostSession.tick_of_idle idle⟩

/-- Settles O59: construction looks only at the sizes, and a launched core is running. -/
theorem constructionAnswersTheLaunchState : Obligations.ConstructionAnswersTheLaunchState := by
  intro h p regInit memInit
  refine ⟨fun admissible => ⟨if_pos admissible, HostSession.tick_of_idle rfl, ?_⟩, fun inadmissible => ?_⟩
  · exact (HostSession.request_run_of_running rfl).trans (HostSession.whenIdle_of_idle rfl _)
  · exact if_neg (Bool.eq_false_iff.mp inadmissible)

end Sys2Proof.Machine
end

section
/-! Words written out from the encoding tables (30_encoding.md section 3), under the opcode map that the spec chose. -/

namespace Sys2Proof

theorem defaultOpcodeMap_admissible : defaultOpcodeMap.admissible = true := by decide

/-- Settles O16: each word has the code of its mnemonic, whose operands are its fields; 0x15 is no code. -/
theorem writtenWordsDecode : Obligations.WrittenWordsDecode := by
  have select {w : Word} := decode_of_admissible defaultOpcodeMap_admissible (w := w)
  exact ⟨select .add rfl, select .inc rfl, select .st rfl, select .ld rfl, select .call rfl, select .ret rfl,
    select .div rfl, select .not rfl, select .bne rfl, select .decrypt rfl, decode_of_not_code (by decide)⟩

end Sys2Proof
end
